-- ==== Sys2Proof/Word.lean ====
section
/-!
DEFINITION. The words of the machine and their plainest readings (00_scope.md R8, R9).
-/

namespace Sys2Proof

/-- A register value, the PRNG state and the program counter are 32-bit words (R9). -/
abbrev Word := BitVec 32

/-- A raw 16-bit immediate or branch operand (IMMLEN, R6). -/
abbrev Half := BitVec 16

/-- A byte of a program image or of the console stream. -/
abbrev Byte := BitVec 8

/-- A register index: the 5-bit field of an instruction word, which can name every index 0 to 31
and no other (R20). -/
abbrev Reg := BitVec 5

/-- `word(n)`: the 32-bit word congruent to the integer `n` modulo 2^32 (R9). -/
def word (n : Int) : Word := BitVec.ofInt 32 n

/-- `signed(v)`: the two's-complement integer of `v` (R9). -/
abbrev signed (v : Word) : Int := v.toInt

/-- `unsigned(v)` (R9). -/
abbrev unsigned (v : Word) : Nat := v.toNat

end Sys2Proof
end

