-- ==== Sys2Proof/Config.lean ====
section
/-!
DEFINITION. The parameters the spec leaves open, each a field with the spec's name for it (00_scope.md R7; the table
that ends 92_eei_decisions.md), and the spec's default of each. Definitions that depend on a parameter take a `Config`
as an argument; the running machine takes `Sys2Proof.config` (Decode.lean).

Every default is the spec's own decision, not a fact of its source: DESIGN CHOICE, log entries 3 to 10.
-/

namespace Sys2Proof

/-- `I_TARGET_FIELD`: which I_FORMAT field holds the target register of the I_FORMAT instructions other than
`seti` (R69, D3). -/
inductive TargetField where
  | rs | rt
deriving DecidableEq, Repr

/-- `UNUSED_FIELD_POLICY`: whether decode ignores unused fields or checks that they are zero (R65, D5). -/
inductive UnusedFieldPolicy where
  | ignore | check
deriving DecidableEq, Repr

/-- `IMEM_BYTE_ORDER`: the order of the four bytes of an instruction word in a program image (R43, D9). -/
inductive ByteOrder where
  | little | big
deriving DecidableEq, Repr

/-- The open parameters of R7. `PROG_LEN` belongs to each program (State.progLen). -/
structure Config where
  /-- `I_TARGET_FIELD` (D3). -/
  iTargetField : TargetField
  /-- `UNUSED_FIELD_POLICY` (D5). -/
  unusedFieldPolicy : UnusedFieldPolicy
  /-- `PROG_BASE` after reset (D8). -/
  progBase : Word
  /-- `IMEM_BYTE_ORDER` (D9). -/
  imemByteOrder : ByteOrder
  /-- `Resolve(pc, off)`: where a taken branch at `pc` with operand `off` goes (R143, D10). -/
  resolve : Word → Half → Word
  /-- `REG_RESET`: the value of each register after reset (R36, D11). -/
  regReset : Vector Word 32
  /-- `REG0_HARDWIRED_ZERO`: whether register 0 ignores writes (R21, D13). -/
  reg0HardwiredZero : Bool
  /-- `CONSOLE_ENCODING`: the bytes of one character of the console text (R164, D14). -/
  consoleEncoding : Char → List Byte

/-- The default resolver, `pc + 4 + (sext_16(off) << 2)`, wrapping (R143, D10). -/
def Config.resolveWordOffset (pc : Word) (off : Half) : Word :=
  pc + 4#32 + (off.signExtend 32 <<< 2)

/-- ASCII: one byte for each character, the newline being 0x0A (R164, D14). -/
def Config.ascii (c : Char) : List Byte :=
  [BitVec.ofNat 8 c.toNat]

/-- The spec's default of every parameter (R7). -/
def Config.default : Config where
  iTargetField := .rt
  unusedFieldPolicy := .ignore
  progBase := 0x00400000#32
  imemByteOrder := .little
  resolve := Config.resolveWordOffset
  regReset := Vector.replicate 32 0#32
  reg0HardwiredZero := false
  consoleEncoding := Config.ascii

end Sys2Proof
end

