-- ==== Sys2Proof/Syntax.lean ====
section
/-!
DEFINITION. The 17 instructions (00_scope.md R2), one constructor for each row of spec/opcode_table.json, and the
descriptors of the catalog (R1, R37, R60, R64).
-/

namespace Sys2Proof

/-- The format tag of a descriptor (30_encoding.md R60). -/
inductive Format where
  /-- opcode, rs, rt, rd, unused, funct (R61). -/
  | rFormat
  /-- opcode, rs, rt, immediate (R62). -/
  | iFormat
  /-- opcode, rs, unused, offset_or_address (R63). -/
  | iBranchFormat
deriving DecidableEq, Repr

/-- The names of the 17 descriptors, in the order of the source's table (R2). -/
inductive Mnemonic where
  | move | heal | settypep1 | settypep2 | buff | debuff | inspect | zerohp | setstatus | resetstatus
  | temppower | typeeff | crit | ball | catchBr | rng | seti
deriving DecidableEq, Repr

/-- An instruction with its decoded operand list: `a` and `b` are register indices, `imm` the raw 16-bit immediate and
`off` the raw 16-bit branch operand (R66 to R70). `catchBr` is the spec's `catch`. -/
inductive Instr where
  /-- `move A, B` (R101). -/
  | move (a b : Reg)
  /-- `heal A, imm` (R111). -/
  | heal (a : Reg) (imm : Half)
  /-- `settypep1 A, imm`; A is decoded and ignored (R114). -/
  | settypep1 (a : Reg) (imm : Half)
  /-- `settypep2 A, imm`; A is decoded and ignored (R115). -/
  | settypep2 (a : Reg) (imm : Half)
  /-- `buff A, imm` (R112). -/
  | buff (a : Reg) (imm : Half)
  /-- `debuff A, imm` (R113). -/
  | debuff (a : Reg) (imm : Half)
  /-- `inspect A` (R160). -/
  | inspect (a : Reg)
  /-- `zerohp A` (R102). -/
  | zerohp (a : Reg)
  /-- `setstatus A, imm` (R116). -/
  | setstatus (a : Reg) (imm : Half)
  /-- `resetstatus A, imm` (R117). -/
  | resetstatus (a : Reg) (imm : Half)
  /-- `temppower A, B` (R103). -/
  | temppower (a b : Reg)
  /-- `typeeff A, B` (R131). -/
  | typeeff (a b : Reg)
  /-- `crit A` (R104). -/
  | crit (a : Reg)
  /-- `ball A, B` (R132). -/
  | ball (a b : Reg)
  /-- `catch A, target` (R141). -/
  | catchBr (a : Reg) (off : Half)
  /-- `rng A`; the immediate field is ignored and is no operand (R152). -/
  | rng (a : Reg)
  /-- `seti A, imm` (R118). -/
  | seti (a : Reg) (imm : Half)
deriving DecidableEq, Repr

/-- The descriptor an instruction belongs to. -/
def Instr.mnemonic : Instr → Mnemonic
  | .move _ _ => .move
  | .heal _ _ => .heal
  | .settypep1 _ _ => .settypep1
  | .settypep2 _ _ => .settypep2
  | .buff _ _ => .buff
  | .debuff _ _ => .debuff
  | .inspect _ => .inspect
  | .zerohp _ => .zerohp
  | .setstatus _ _ => .setstatus
  | .resetstatus _ _ => .resetstatus
  | .temppower _ _ => .temppower
  | .typeeff _ _ => .typeeff
  | .crit _ => .crit
  | .ball _ _ => .ball
  | .catchBr _ _ => .catchBr
  | .rng _ => .rng
  | .seti _ _ => .seti

/-- One catalog entry (R37): its number in the source's table, its name, the textual form of R78 (not consumed at
execution time), its format and its key. The source gives no description string, so there is none. -/
structure Descriptor where
  number : Nat
  mnemonic : Mnemonic
  form : String
  format : Format
  opcode : BitVec 6
  /-- Present under opcode 000000 only (R64). -/
  funct : Option (BitVec 6)
deriving DecidableEq, Repr

/-- The mask of a descriptor: 0xFC00003F where funct takes part, else 0xFC000000 (R64). -/
def Descriptor.mask (d : Descriptor) : Word :=
  match d.funct with
  | some _ => 0xFC00003F#32
  | none => 0xFC000000#32

/-- The value the masked word has for a descriptor (R64). -/
def Descriptor.pattern (d : Descriptor) : Word :=
  match d.funct with
  | some f => d.opcode ++ 0#20 ++ f
  | none => d.opcode ++ 0#26

/-- Whether a word selects a descriptor: match and mask (R64). -/
def Descriptor.selects (d : Descriptor) (w : Word) : Bool :=
  w &&& d.mask == d.pattern

/-- Whether two descriptors could select the same word: the same opcode, and no two different functs (R64). -/
def Descriptor.collides (d e : Descriptor) : Bool :=
  d.opcode == e.opcode &&
    match d.funct, e.funct with
    | some f, some g => f == g
    | _, _ => true

end Sys2Proof
end

