-- ==== Sys2Proof/WellFormed.lean ====
section
/-!
DEFINITION. What must hold of the things given to the machine from outside: a catalog (30_encoding.md R76) and a program
image (20_memory.md R41). An instruction needs no check: its operands are exactly the 5-bit and 16-bit fields of the
encoding (R20, R66, R67), so every term of `Instr` is well formed.
-/

namespace Sys2Proof

/-- The catalog check made "once at catalog-build time": no two descriptors share a key (R76, R173). -/
def catalogWf : List Descriptor → Bool
  | [] => true
  | d :: ds => ds.all (fun e => !d.collides e) && catalogWf ds

/-- A program: `PROG_BASE` and the words `IMem[0]` to `IMem[PROG_LEN - 1]` (R41). -/
structure Program where
  base : Word
  words : List Word
deriving DecidableEq, Repr

/-- `PROG_BASE` is a multiple of 4 (R41). -/
def Program.aligned (p : Program) : Bool :=
  p.base.toNat % 4 == 0

/-- `PROG_BASE + 4*PROG_LEN < 2^32`, so the program does not wrap (R41). -/
def Program.fits (p : Program) : Bool :=
  decide (p.base.toNat + 4 * p.words.length < 2 ^ 32)

/-- A program the machine may be loaded with (R41). -/
def Program.wf (p : Program) : Bool :=
  p.aligned && p.fits

end Sys2Proof
end

