-- ==== Sys2Proof/Decode.lean ====
section
/-!
DEFINITION. The decoder: fields of a word, the catalog, the closed match on the key, the operand lists, and the encoder
(30_encoding.md R60 to R82). Decoding is total and rejects by name.
-/

namespace Sys2Proof

/-- The parameters of the running machine: the spec's defaults (R7). -/
def config : Config := Config.default

/-! ## Fields (R61 to R63; the bit numbers are decision D1, log entry 17) -/

def opcodeOf (w : Word) : BitVec 6 := w.extractLsb' 26 6
def rsOf (w : Word) : Reg := w.extractLsb' 21 5
def rtOf (w : Word) : Reg := w.extractLsb' 16 5
def rdOf (w : Word) : Reg := w.extractLsb' 11 5
def unusedOf (w : Word) : BitVec 5 := w.extractLsb' 6 5
def functOf (w : Word) : BitVec 6 := w.extractLsb' 0 6
def immOf (w : Word) : Half := w.extractLsb' 0 16

/-! ## The catalog (R37, R71, R72, R78) -/

/-- The R_FORMAT rows, all under opcode 000000 (R72). -/
def catalogR : List Descriptor :=
  [ ⟨1, .move, "move rd, rs", .rFormat, 0b000000#6, some 0b000001#6⟩,
    ⟨7, .inspect, "inspect rs", .rFormat, 0b000000#6, some 0b000010#6⟩,
    ⟨8, .zerohp, "zerohp rd", .rFormat, 0b000000#6, some 0b000011#6⟩,
    ⟨11, .temppower, "temppower rd, rs", .rFormat, 0b000000#6, some 0b000100#6⟩,
    ⟨12, .typeeff, "typeeff rd, rs", .rFormat, 0b000000#6, some 0b000101#6⟩,
    ⟨13, .crit, "crit rd", .rFormat, 0b000000#6, some 0b000110#6⟩,
    ⟨14, .ball, "ball rd, rs", .rFormat, 0b000000#6, some 0b000111#6⟩ ]

/-- The rows told apart by opcode alone (R71). -/
def catalogI : List Descriptor :=
  [ ⟨15, .catchBr, "catch rd, target", .iBranchFormat, 0b000100#6, none⟩,
    ⟨2, .heal, "heal rd, imm", .iFormat, 0b001000#6, none⟩,
    ⟨3, .settypep1, "settypep1 rd, imm", .iFormat, 0b001001#6, none⟩,
    ⟨5, .buff, "buff rd, imm", .iFormat, 0b001010#6, none⟩,
    ⟨6, .debuff, "debuff rd, imm", .iFormat, 0b001011#6, none⟩,
    ⟨9, .setstatus, "setstatus rd, imm", .iFormat, 0b001100#6, none⟩,
    ⟨10, .resetstatus, "resetstatus rd, imm", .iFormat, 0b001101#6, none⟩,
    ⟨16, .rng, "rng rd", .iFormat, 0b001110#6, none⟩,
    ⟨17, .seti, "seti rd, imm", .iFormat, 0b001111#6, none⟩,
    ⟨4, .settypep2, "settypep2 rd, imm", .iFormat, 0b101001#6, none⟩ ]

/-- The instruction catalog: 17 descriptors, fixed (R1, R2, R37). -/
def catalog : List Descriptor := catalogR ++ catalogI

/-! ## Decode -/

/-- Why a word or a byte sequence is no instruction. -/
inductive Reject where
  /-- The opcode is in no row of R71. -/
  | unassignedOpcode
  /-- Opcode 000000 with a funct in no row of R72. -/
  | unassignedFunct
  /-- An ignored bit is set and `UNUSED_FIELD_POLICY` is `check` (R65). -/
  | unusedBitsSet
  /-- Fewer than the four bytes of an instruction word (R60). -/
  | truncated
deriving DecidableEq, Repr

/-- The funct map under opcode 000000 (R72). -/
def functMap (fn : BitVec 6) : Except Reject Mnemonic :=
  match fn with
  | 0b000001#6 => .ok .move
  | 0b000010#6 => .ok .inspect
  | 0b000011#6 => .ok .zerohp
  | 0b000100#6 => .ok .temppower
  | 0b000101#6 => .ok .typeeff
  | 0b000110#6 => .ok .crit
  | 0b000111#6 => .ok .ball
  | _ => .error .unassignedFunct

/-- The decode key: the opcode, and the funct only under opcode 000000 (R64, R71, R77). -/
def keyMap (op fn : BitVec 6) : Except Reject Mnemonic :=
  match op with
  | 0b000000#6 => functMap fn
  | 0b000100#6 => .ok .catchBr
  | 0b001000#6 => .ok .heal
  | 0b001001#6 => .ok .settypep1
  | 0b001010#6 => .ok .buff
  | 0b001011#6 => .ok .debuff
  | 0b001100#6 => .ok .setstatus
  | 0b001101#6 => .ok .resetstatus
  | 0b001110#6 => .ok .rng
  | 0b001111#6 => .ok .seti
  | 0b101001#6 => .ok .settypep2
  | _ => .error .unassignedOpcode

/-- The register operand of an I_FORMAT instruction other than `seti` (R69, D3, log entry 4). -/
def iTarget (c : Config) (w : Word) : Reg :=
  match c.iTargetField with
  | .rt => rtOf w
  | .rs => rsOf w

/-- The operand list of each descriptor (R68, R69, R70; D4, log entry 17). -/
def operandsOf (c : Config) (m : Mnemonic) (w : Word) : Instr :=
  match m with
  | .move => .move (rdOf w) (rsOf w)
  | .inspect => .inspect (rsOf w)
  | .zerohp => .zerohp (rdOf w)
  | .temppower => .temppower (rdOf w) (rsOf w)
  | .typeeff => .typeeff (rdOf w) (rsOf w)
  | .crit => .crit (rdOf w)
  | .ball => .ball (rdOf w) (rsOf w)
  | .catchBr => .catchBr (rsOf w) (immOf w)
  | .heal => .heal (iTarget c w) (immOf w)
  | .settypep1 => .settypep1 (iTarget c w) (immOf w)
  | .buff => .buff (iTarget c w) (immOf w)
  | .debuff => .debuff (iTarget c w) (immOf w)
  | .setstatus => .setstatus (iTarget c w) (immOf w)
  | .resetstatus => .resetstatus (iTarget c w) (immOf w)
  | .rng => .rng (iTarget c w)
  | .seti => .seti (rsOf w) (immOf w)
  | .settypep2 => .settypep2 (iTarget c w) (immOf w)

/-- The I_FORMAT register field that holds no operand, as a mask (R69). -/
def iIgnored (c : Config) : Word :=
  match c.iTargetField with
  | .rt => 0x03E00000#32
  | .rs => 0x001F0000#32

/-- The ignored bits of each descriptor (R65). -/
def ignoredBits (c : Config) (m : Mnemonic) : Word :=
  match m with
  | .move | .temppower | .typeeff | .ball => 0x001F07C0#32
  | .zerohp | .crit => 0x03FF07C0#32
  | .inspect => 0x001FFFC0#32
  | .catchBr | .seti => 0x001F0000#32
  | .heal | .settypep1 | .buff | .debuff | .setstatus | .resetstatus | .settypep2 => iIgnored c
  | .rng => iIgnored c ||| 0x0000FFFF#32

/-- Decode a word to an instruction and its operands (R64 to R73), or say why it has no descriptor. -/
def decodeWith (c : Config) (w : Word) : Except Reject Instr :=
  match keyMap (opcodeOf w) (functOf w) with
  | .error r => .error r
  | .ok m =>
    match c.unusedFieldPolicy with
    | .ignore => .ok (operandsOf c m w)
    | .check => if w &&& ignoredBits c m = 0#32 then .ok (operandsOf c m w) else .error .unusedBitsSet

/-- The running machine's decoder. -/
def decode (w : Word) : Except Reject Instr := decodeWith config w

/-! ## Bytes (R43) -/

/-- The word of four bytes in the order of their addresses. -/
def wordOfBytes (o : ByteOrder) (b0 b1 b2 b3 : Byte) : Word :=
  match o with
  | .little => b3 ++ b2 ++ b1 ++ b0
  | .big => b0 ++ b1 ++ b2 ++ b3

/-- The byte of a word at offset 0, 1, 2 or 3 from its address. -/
def byteOfWord (o : ByteOrder) (w : Word) (k : Nat) : Byte :=
  match o with
  | .little => w.extractLsb' (8 * k) 8
  | .big => w.extractLsb' (24 - 8 * k) 8

/-- The four bytes of a word in the order of their addresses. -/
def bytesOfWord (o : ByteOrder) (w : Word) : List Byte :=
  [byteOfWord o w 0, byteOfWord o w 1, byteOfWord o w 2, byteOfWord o w 3]

/-- Decode the first instruction of a byte sequence and hand back the rest. -/
def decodeBytes (c : Config) (bs : List Byte) : Except Reject (Instr × List Byte) :=
  match bs with
  | b0 :: b1 :: b2 :: b3 :: rest =>
    match decodeWith c (wordOfBytes c.imemByteOrder b0 b1 b2 b3) with
    | .ok i => .ok (i, rest)
    | .error r => .error r
  | _ => .error .truncated

/-- The words of a program image given as bytes (R43). An image whose length is no multiple of 4 loses its last 1, 2 or 3
bytes, which make no whole word: DESIGN CHOICE, log entry 7 (the spec is silent on such an image). -/
def wordsOfBytes (o : ByteOrder) : List Byte → List Word
  | b0 :: b1 :: b2 :: b3 :: rest => wordOfBytes o b0 b1 b2 b3 :: wordsOfBytes o rest
  | _ => []

/-- The instruction the decoder reads from an instruction of `nbits` bits `w`, every bit above them zero. -/
def decodeTableWord (nbits w : Nat) : Option Instr :=
  match decodeBytes config (bytesOfWord config.imemByteOrder (BitVec.ofNat 32 (w % 2 ^ nbits))) with
  | .ok (i, _) => some i
  | .error _ => none

/-! ## Encode: the canonical words of R81, every ignored bit zero -/

/-- An R_FORMAT word (R61). -/
def packR (rs rd : Reg) (fn : BitVec 6) : Word :=
  0b000000#6 ++ rs ++ 0#5 ++ rd ++ 0#5 ++ fn

/-- An I_FORMAT or I_BRANCH_FORMAT word (R62, R63). -/
def packI (op : BitVec 6) (rs rt : Reg) (imm : Half) : Word :=
  op ++ rs ++ rt ++ imm

/-- An I_FORMAT word with its operand in the target field (R69, D3). -/
def packTarget (c : Config) (op : BitVec 6) (a : Reg) (imm : Half) : Word :=
  match c.iTargetField with
  | .rt => packI op 0#5 a imm
  | .rs => packI op a 0#5 imm

/-- The canonical word of an instruction (R81). -/
def encodeWith (c : Config) (i : Instr) : Word :=
  match i with
  | .move a b => packR b a 0b000001#6
  | .inspect a => packR a 0#5 0b000010#6
  | .zerohp a => packR 0#5 a 0b000011#6
  | .temppower a b => packR b a 0b000100#6
  | .typeeff a b => packR b a 0b000101#6
  | .crit a => packR 0#5 a 0b000110#6
  | .ball a b => packR b a 0b000111#6
  | .catchBr a off => packI 0b000100#6 a 0#5 off
  | .heal a imm => packTarget c 0b001000#6 a imm
  | .settypep1 a imm => packTarget c 0b001001#6 a imm
  | .buff a imm => packTarget c 0b001010#6 a imm
  | .debuff a imm => packTarget c 0b001011#6 a imm
  | .setstatus a imm => packTarget c 0b001100#6 a imm
  | .resetstatus a imm => packTarget c 0b001101#6 a imm
  | .rng a => packTarget c 0b001110#6 a 0#16
  | .seti a imm => packI 0b001111#6 a 0#5 imm
  | .settypep2 a imm => packTarget c 0b101001#6 a imm

/-- The running machine's encoder. -/
def encode (i : Instr) : Word := encodeWith config i

end Sys2Proof
end

