-- ==== Sys2Proof/Machine/State.lean ====
section
/-!
DEFINITION. The architectural state (10_state.md R20 to R36) with the loaded program (20_memory.md R41), the reasons a
step can stop, and the state after reset. Plain data.
-/

namespace Sys2Proof.Machine

/-- The run status (R33). A fault records the word, absent for a fetch outside the program (R172, R199), and the pc. -/
inductive Status where
  | running
  | halted
  | fault (instr : Option Word) (pc : Word)
deriving DecidableEq, Repr

/-- The machine's state. The last three fields are the spec's parameters `PROG_BASE`, `PROG_LEN` and `IMem` (R41), which
no step changes and a load replaces (R191). DESIGN CHOICE, log entries 1 and 2. -/
structure State where
  /-- The register file (R20). -/
  regs : Vector Word 32
  /-- The PRNG state cell (R27). -/
  seed : Word
  /-- The program counter, the byte address of the instruction being executed (R29). -/
  pc : Word
  /-- The console stream, oldest byte first (R32). -/
  console : List Byte
  /-- The run status (R33). -/
  status : Status
  /-- `PROG_BASE` (R41). -/
  progBase : Word
  /-- `PROG_LEN` (R41). -/
  progLen : Nat
  /-- `IMem`, as address and byte pairs in the canonical form of `Memory.wf` (Machine/Ops.lean) (R41, R43). -/
  imem : List Host.Cell
deriving DecidableEq, Repr

/-- Why the machine takes no further step: the fault its `status` records (R33, R171, R199). `step` raises one only in a
state whose status is already a fault. Safe: the spec says no step is taken there. -/
inductive Fault where
  /-- Raised by `step` after `DecodeFail(instr)` at `pc` (R171). Safe. -/
  | decodeFail (instr pc : Word)
  /-- Raised by `step` after a fetch at `pc`, outside the program and not at its end (R199 b). Safe. -/
  | fetchOutside (pc : Word)
deriving DecidableEq, Repr

/-- An instruction the model gives no meaning to. -/
inductive Refusal where
  /-- Raised by an arm of `exec` that has no meaning yet. Safe. -/
  | notModelled (mnemonic : String)
deriving DecidableEq, Repr

/-- The state right after `rst` with no program loaded (R36, R190): the values of R36, and an empty program
(DESIGN CHOICE, log entry 2). -/
def State.resetWith (c : Config) : State where
  regs := c.regReset
  seed := 0x01234567#32
  pc := c.progBase
  console := []
  status := .running
  progBase := c.progBase
  progLen := 0
  imem := []

/-- The machine right after reset, every parameter at its default. -/
def State.reset : State := State.resetWith config

end Sys2Proof.Machine
end

