-- ==== Sys2Proof/Machine/Ops.lean ====
section
/-!
DEFINITION. The named operations over the state: setters, the register port, program memory and fetch, the program
counter, the console, the one exception and the ends of a run, and the host's operations between steps.
-/

namespace Sys2Proof.Machine

/-! ## Setters, one for each field a step or the host changes -/

def State.withRegs (s : State) (x : Vector Word 32) : State := { s with regs := x }
def State.withSeed (s : State) (x : Word) : State := { s with seed := x }
def State.withPc (s : State) (x : Word) : State := { s with pc := x }
def State.withConsole (s : State) (x : List Byte) : State := { s with console := x }
def State.withStatus (s : State) (x : Status) : State := { s with status := x }
def State.withProgram (s : State) (base : Word) (len : Nat) (m : List Host.Cell) : State :=
  { s with progBase := base, progLen := len, imem := m }

/-! ## Registers (R20, R21, R25, R26) -/

/-- `x[r]` (R10, R20). Where `REG0_HARDWIRED_ZERO` is taken, register 0 reads zero (D13, log entry 9). -/
def readReg (c : Config) (s : State) (r : Reg) : Word :=
  if c.reg0HardwiredZero = true ∧ r = 0#5 then 0#32 else s.regs[r.toNat]'r.isLt

/-- `x[r] <- v` (R10, R20). Where `REG0_HARDWIRED_ZERO` is taken, a write to register 0 is lost (D13, log entry 9). -/
def writeReg (c : Config) (r : Reg) (v : Word) (s : State) : State :=
  if c.reg0HardwiredZero = true ∧ r = 0#5 then s else s.withRegs (s.regs.set r.toNat v r.isLt)

/-! ## Program memory: address and byte pairs in canonical form (R41, R43; log entry 1) -/

/-- What an address that is not listed reads as. DESIGN CHOICE, log entry 1. -/
def Memory.unlisted : Byte := 0x00#8

/-- The canonical form, for cells at or above address `lo`: addresses strictly rising, no cell equal to what an unlisted
address reads as. -/
def Memory.wfFrom (lo : Nat) : List Host.Cell → Bool
  | [] => true
  | (a, b) :: m => decide (lo ≤ a) && b != Memory.unlisted && Memory.wfFrom (a + 1) m

/-- The canonical form of a memory. -/
def Memory.wf (m : List Host.Cell) : Bool := Memory.wfFrom 0 m

/-- The byte at an address. -/
def Memory.readByte (m : List Host.Cell) (a : Nat) : Byte :=
  match m with
  | [] => Memory.unlisted
  | (x, b) :: m => if x = a then b else Memory.readByte m a

/-- Put a byte in front of cells whose addresses are higher, unless it is what an unlisted address reads as. -/
def Memory.putFront (a : Nat) (b : Byte) (m : List Host.Cell) : List Host.Cell :=
  if b = Memory.unlisted then m else (a, b) :: m

/-- Write the byte at an address, keeping the canonical form. -/
def Memory.writeByte (m : List Host.Cell) (a : Nat) (b : Byte) : List Host.Cell :=
  match m with
  | [] => Memory.putFront a b []
  | (x, y) :: m =>
    if a < x then Memory.putFront a b ((x, y) :: m)
    else if a = x then Memory.putFront a b m
    else (x, y) :: Memory.writeByte m a b

/-- The word of the four bytes from an address up, in the byte order given (R43). -/
def Memory.readWord (o : ByteOrder) (m : List Host.Cell) (a : Nat) : Word :=
  wordOfBytes o (Memory.readByte m a) (Memory.readByte m (a + 1)) (Memory.readByte m (a + 2)) (Memory.readByte m (a + 3))

/-- Write the four bytes of a word from an address up (R43). -/
def Memory.writeWord (o : ByteOrder) (m : List Host.Cell) (a : Nat) (w : Word) : List Host.Cell :=
  Memory.writeByte
    (Memory.writeByte
      (Memory.writeByte (Memory.writeByte m a (byteOfWord o w 0)) (a + 1) (byteOfWord o w 1))
      (a + 2) (byteOfWord o w 2))
    (a + 3) (byteOfWord o w 3)

/-- Write a list of words from an address up, word `k` at byte address `a + 4*k` (R41). -/
def Memory.writeWords (o : ByteOrder) (m : List Host.Cell) (a : Nat) : List Word → List Host.Cell
  | [] => m
  | w :: ws => Memory.writeWords o (Memory.writeWord o m a w) (a + 4) ws

/-! ## Fetch (R42) -/

/-- The address just after the program, `PROG_BASE + 4*PROG_LEN` (R41). -/
def State.progEnd (s : State) : Nat := s.progBase.toNat + 4 * s.progLen

/-- Whether an address holds a word of the program: a multiple of 4 in `[PROG_BASE, PROG_BASE + 4*PROG_LEN)` (R42). -/
def State.inProgram (s : State) (a : Nat) : Bool :=
  decide (s.progBase.toNat ≤ a) && decide (a < s.progEnd) && a % 4 == 0

/-- What the fetch at the pc finds (R42, R77). -/
inductive Fetched where
  /-- The instruction word. -/
  | word (w : Word)
  /-- The pc is the address just after the program. -/
  | endOfProgram
  /-- Any other address. -/
  | outside
deriving DecidableEq, Repr

/-- `IFetch(pc)` and the two tests before it, in the order of R77 and R175. -/
def fetch (c : Config) (s : State) : Fetched :=
  if s.pc.toNat = s.progEnd then .endOfProgram
  else bif s.inProgram s.pc.toNat then .word (Memory.readWord c.imemByteOrder s.imem s.pc.toNat)
  else .outside

/-! ## Program counter (R30, R143) -/

/-- `pc <- pc + 4` (R30). -/
def advance (s : State) : State := s.withPc (s.pc + 4#32)

/-- The resolver's jump, `pc <- Resolve(pc, off)`: a requested branch (R140, R143). -/
def jump (c : Config) (off : Half) (s : State) : State := s.withPc (c.resolve s.pc off)

/-! ## Console (R32, R161) -/

/-- `console <- console ++ bytes`: the block only appends (R161). -/
def appendConsole (bytes : List Byte) (s : State) : State := s.withConsole (s.console ++ bytes)

/-! ## The one exception and the ends of a run (R33, R171, R199) -/

/-- Taking `DecodeFail(instr)`: `status <- Fault(instr, pc)` and nothing else (R171). -/
def raiseDecodeFail (instr : Word) (s : State) : State := s.withStatus (.fault (some instr) s.pc)

/-- A fetch outside the program: `status <- Fault` with the pc and no word (R172, R199 b). -/
def raiseFetchFault (s : State) : State := s.withStatus (.fault none s.pc)

/-- The normal end: `status <- Halted` and nothing else (R199 a). -/
def haltRun (s : State) : State := s.withStatus .halted

/-- The reason a faulted machine takes no step: what its status records (R33). -/
def stopReason (instr : Option Word) (pc : Word) : Fault :=
  match instr with
  | some w => .decodeFail w pc
  | none => .fetchOutside pc

/-! ## The host's operations, between steps only (R26, R190, R191; log entry 15) -/

/-- Whether the status records a fault. A faulted state is never a final state (R33, R171). -/
def State.faulted (s : State) : Bool :=
  match s.status with
  | .fault _ _ => true
  | _ => false

/-- A host operation other than `rst`: a faulted machine keeps every piece of its state until reset (R33, R177; log
entry 21). -/
def unlessFaulted (f : State → State) (s : State) : State := bif s.faulted then s else f s

/-- `rst`: every piece of state at its value of R36; the program, a parameter, stays (R190; log entry 2). -/
def assertRst (c : Config) (s : State) : State :=
  ((((s.withRegs c.regReset).withSeed 0x01234567#32).withPc s.progBase).withConsole []).withStatus .running

/-- Start a machine that is Running or Halted at an address, with a program given by its base, length and memory (R191).
A faulted one stays as it is (R33, R177). That a halted one starts is DEDUCED, log entry 21. -/
def startAt (a base : Word) (len : Nat) (m : List Host.Cell) : State → State :=
  unlessFaulted fun s => ((s.withProgram base len m).withPc a).withStatus .running

/-- `load`: a new `IMem`, `PROG_BASE` and `PROG_LEN`, `pc <- PROG_BASE`, `status <- Running`; seed, registers and console
are kept (R191). A load has no effect on a faulted machine, whose Fault only `rst` leaves (R33, R177; log entry 21). -/
def load (c : Config) (p : Program) (s : State) : State :=
  startAt p.base p.base p.words.length (Memory.writeWords c.imemByteOrder [] p.base.toNat p.words) s

/-- `load` of an image given as bytes, read in `IMEM_BYTE_ORDER` (R43, R191). -/
def loadBytes (c : Config) (base : Word) (image : List Byte) (s : State) : State :=
  load c ⟨base, wordsOfBytes c.imemByteOrder image⟩ s

/-- The host clears the console when it loads a program, if it wants to (R191). Not on a faulted machine (R33); on a halted
one too: DESIGN CHOICE, log entry 21. -/
def clearConsole : State → State := unlessFaulted fun s => s.withConsole []

/-- `get(index)`: the host's read of a register (R26, R38). -/
def hostRead (c : Config) (s : State) (r : Reg) : Word := readReg c s r

/-- `set(index, value)`: the host's write of a register (R26, R38). Not on a faulted machine (R33); on a
halted one too: DESIGN CHOICE, log entry 21. -/
def hostWrite (c : Config) (r : Reg) (v : Word) : State → State := unlessFaulted (writeReg c r v)

/-- The pc with its low two bits clear: the pc itself where it is a multiple of 4, as it always is (R29). -/
def fetchAddress (s : State) : Word := s.pc &&& 0xFFFFFFFC#32

/-- A faulted machine after `rst`, the one way out of a Fault (R177); any other machine as it is. -/
def leaveFault (c : Config) (s : State) : State := bif s.faulted then assertRst c s else s

/-- Make `w` the word the next fetch of a machine that is not faulted reads: in place where the pc is an address of the
program, else as a new program of that one word at the pc (log entry 16). -/
def placeAtFetch (c : Config) (w : Word) (s : State) : State :=
  bif s.inProgram (fetchAddress s).toNat then
    startAt (fetchAddress s) s.progBase s.progLen
      (Memory.writeWord c.imemByteOrder s.imem (fetchAddress s).toNat w) s
  else startAt (fetchAddress s) (fetchAddress s) 1 (Memory.writeWord c.imemByteOrder [] (fetchAddress s).toNat w) s

/-- Make `w` the word the next fetch reads; a faulted machine takes `rst` first (log entry 16). -/
def placeWord (c : Config) (w : Word) (s : State) : State := placeAtFetch c w (leaveFault c s)

end Sys2Proof.Machine
end

