-- ==== Sys2Proof/Machine/Operands.lean ====
section
/-!
DEFINITION. The operand forms and the 32-bit ALU: sign and zero extension, doubling, halving toward zero, the bitwise
operations (00_scope.md R11 to R18), the fixed register slots (10_state.md R23) and the register use of each
instruction (R24).
-/

namespace Sys2Proof.Machine

/-! ## Extension (R10, R12, R66) -/

/-- `sext_16(v)`: bits 15:0 are `v`, bits 31:16 all `v[15]` (R12). -/
def sext16 (v : Half) : Word := v.signExtend 32

/-- `zext_16(v)` of a field of 16 bits or fewer (R10). -/
def zext16 {n : Nat} (v : BitVec n) : Word := v.setWidth 32

/-! ## The ALU (R11, R13, R14, R17) -/

/-- `a + b`, wrapping (R11). -/
def add (a b : Word) : Word := word (unsigned a + unsigned b)

/-- `a - b`, wrapping (R11). -/
def sub (a b : Word) : Word := word ((unsigned a : Int) - (unsigned b : Int))

/-- `mul2(a) = word(2 * signed(a))` (R13). -/
def mul2 (a : Word) : Word := word (2 * signed a)

/-- `div2t(a) = word(q)`, q being `signed(a) / 2` rounded toward zero (R14). -/
def div2t (a : Word) : Word := word ((signed a).tdiv 2)

/-- `a | m` (R17, R116). -/
def setBits (a m : Word) : Word := a ||| m

/-- `a & ~m`: extended first, inverted second (R17, R117). -/
def clearBits (a m : Word) : Word := a &&& ~~~m

/-! ## The fixed slots (R6, R23) -/

/-- `ATTACKER_SLOT`. -/
def attackerSlot : Reg := 14#5

/-- `DEFENDER_SLOT`. -/
def defenderSlot : Reg := 15#5

/-- `DEFENDER_HP_SLOT`. -/
def defenderHpSlot : Reg := 9#5

/-! ## Register use (R24) -/

/-- The registers an instruction reads (R24). -/
def regsRead : Instr → List Reg
  | .move a b => [a, b]
  | .heal a _ => [a]
  | .settypep1 _ _ => []
  | .settypep2 _ _ => []
  | .buff a _ => [a]
  | .debuff a _ => [a]
  | .inspect a => [a]
  | .zerohp _ => []
  | .setstatus a _ => [a]
  | .resetstatus a _ => [a]
  | .temppower _ b => [b]
  | .typeeff a b => [a, b, attackerSlot]
  | .crit a => [a]
  | .ball a b => [a, b]
  | .catchBr a _ => [a, defenderHpSlot]
  | .rng _ => []
  | .seti _ _ => []

/-- The register an instruction writes, if it writes one (R24). -/
def regWritten : Instr → Option Reg
  | .move a _ => some a
  | .heal a _ => some a
  | .settypep1 _ _ => some attackerSlot
  | .settypep2 _ _ => some defenderSlot
  | .buff a _ => some a
  | .debuff a _ => some a
  | .inspect _ => none
  | .zerohp a => some a
  | .setstatus a _ => some a
  | .resetstatus a _ => some a
  | .temppower a _ => some a
  | .typeeff a _ => some a
  | .crit a => some a
  | .ball a _ => some a
  | .catchBr _ _ => none
  | .rng a => some a
  | .seti a _ => some a

end Sys2Proof.Machine
end

