-- ==== Sys2Proof/Machine/Flags.lean ====
section
/-!
DEFINITION. There are no status flags, condition codes or predicate registers (10_state.md R31): no instruction writes or
reads one. What stands here are the two comparisons instructions make for themselves (00_scope.md R15, R16).
-/

namespace Sys2Proof.Machine

/-- `a >s b`: `signed(a) > signed(b)` (R15; D21, log entry 18). -/
def gtSigned (a b : Word) : Bool := decide (signed a > signed b)

/-- `a == b` on all 32 bits (R16; D21, log entry 18). -/
def eqWord (a b : Word) : Bool := a == b

end Sys2Proof.Machine
end

