-- ==== Sys2Proof/Machine/Branch.lean ====
section
/-!
DEFINITION. Control transfer: `catch` and the branch it requests (43_branch.md R140 to R146). There is no delay slot
(R144) and a target outside the program is found by the next fetch (R146).
-/

namespace Sys2Proof.Machine

/-- The decision of `catch`: `x[A] >s x[9]`, strict and signed (R141, R142). -/
def branchTaken (c : Config) (a : Reg) (s : State) : Bool :=
  gtSigned (readReg c s a) (readReg c s defenderHpSlot)

/-- Request the branch with the operand unchanged, or fall through (R140, R141, R143). -/
def routineCatch (c : Config) (a : Reg) (off : Half) (s : State) : State :=
  bif branchTaken c a s then jump c off s else advance s

/-- `catch A, target` (R141). -/
def execCatch (a : Reg) (off : Half) (s : State) : Host.Outcome State Fault Refusal := .next (routineCatch config a off s)

end Sys2Proof.Machine
end

