-- ==== Sys2Proof/Machine/Console.lean ====
section
/-!
DEFINITION. Console output: `inspect` (45_console.md R160 to R164). Text is a list of characters; its bytes are those of
`CONSOLE_ENCODING` (D14, log entry 10).
-/

namespace Sys2Proof.Machine

/-- The decimal digit of a number below 10. -/
def digitChar (n : Nat) : Char := Char.ofNat (48 + n)

/-- The decimal digits of a number of at most `fuel` digits, without leading zeros. -/
def decimalDigits (fuel n : Nat) : List Char :=
  match fuel with
  | 0 => []
  | k + 1 => if n < 10 then [digitChar n] else decimalDigits k (n / 10) ++ [digitChar (n % 10)]

/-- `Dec(v)`: `signed(v)` in decimal, `-` before a negative value's magnitude (R163). A magnitude is at most 2^31, which
has 10 digits. -/
def decText (v : Word) : List Char :=
  if signed v < 0 then '-' :: decimalDigits 10 (signed v).natAbs else decimalDigits 10 (signed v).natAbs

/-- `Name(i)`: `$t0` to `$t7` for 8 to 15, `$s0` to `$s3` for 16 to 19, `$r<i>` for any other index (R162). -/
def registerName (r : Reg) : List Char :=
  if 8 ≤ r.toNat ∧ r.toNat ≤ 15 then ['$', 't', digitChar (r.toNat - 8)]
  else if 16 ≤ r.toNat ∧ r.toNat ≤ 19 then ['$', 's', digitChar (r.toNat - 16)]
  else '$' :: 'r' :: decimalDigits 2 r.toNat

/-- The fixed prefix of a line (R160, R164). -/
def linePrefix : List Char :=
  ['L', 'e', 't', '\'', 's', ' ', 'l', 'o', 'o', 'k', ' ', 'a', 't', ' '] ++
  ['t', 'h', 'e', ' ', 's', 't', 'a', 't', ' ', 'h', 'e', 'r', 'e', ' ', '(']

/-- The text of a line: prefix, name, separator, value, newline (R160). -/
def lineText (r : Reg) (v : Word) : List Char :=
  linePrefix ++ registerName r ++ [')', ':', ' '] ++ decText v ++ ['\n']

/-- The bytes of a line (R164). -/
def lineBytes (c : Config) (r : Reg) (v : Word) : List Byte :=
  (lineText r v).flatMap c.consoleEncoding

/-- Append one line naming the register and its value; no register changes (R160). -/
def routineInspect (c : Config) (a : Reg) (s : State) : State :=
  advance (appendConsole (lineBytes c a (readReg c s a)) s)

/-- `inspect A` (R160). -/
def execInspect (a : Reg) (s : State) : Host.Outcome State Fault Refusal := .next (routineInspect config a s)

end Sys2Proof.Machine
end

