-- ==== Sys2Proof/Machine/ImmediateAlu.lean ====
section
/-!
DEFINITION. The register-immediate ALU instructions (41_immediate_alu.md R110 to R118). The routine sign-extends its raw
immediate itself (R66, R110).
-/

namespace Sys2Proof.Machine

/-- `x[A] <- x[A] + sext_16(imm)` (R111). -/
def routineHeal (c : Config) (a : Reg) (imm : Half) (s : State) : State :=
  advance (writeReg c a (add (readReg c s a) (sext16 imm)) s)

/-- `heal A, imm` (R111). -/
def execHeal (a : Reg) (imm : Half) (s : State) : Host.Outcome State Fault Refusal := .next (routineHeal config a imm s)

/-- `x[A] <- x[A] + sext_16(imm)` (R112). -/
def routineBuff (c : Config) (a : Reg) (imm : Half) (s : State) : State :=
  advance (writeReg c a (add (readReg c s a) (sext16 imm)) s)

/-- `buff A, imm` (R112). -/
def execBuff (a : Reg) (imm : Half) (s : State) : Host.Outcome State Fault Refusal := .next (routineBuff config a imm s)

/-- `x[A] <- x[A] - sext_16(imm)` (R113). -/
def routineDebuff (c : Config) (a : Reg) (imm : Half) (s : State) : State :=
  advance (writeReg c a (sub (readReg c s a) (sext16 imm)) s)

/-- `debuff A, imm` (R113). -/
def execDebuff (a : Reg) (imm : Half) (s : State) : Host.Outcome State Fault Refusal :=
  .next (routineDebuff config a imm s)

/-- `x[14] <- sext_16(imm)`; the register operand is ignored (R114). -/
def routineSettypep1 (c : Config) (_a : Reg) (imm : Half) (s : State) : State :=
  advance (writeReg c attackerSlot (sext16 imm) s)

/-- `settypep1 A, imm` (R114). -/
def execSettypep1 (a : Reg) (imm : Half) (s : State) : Host.Outcome State Fault Refusal :=
  .next (routineSettypep1 config a imm s)

/-- `x[15] <- sext_16(imm)`; the register operand is ignored (R115). -/
def routineSettypep2 (c : Config) (_a : Reg) (imm : Half) (s : State) : State :=
  advance (writeReg c defenderSlot (sext16 imm) s)

/-- `settypep2 A, imm` (R115). -/
def execSettypep2 (a : Reg) (imm : Half) (s : State) : Host.Outcome State Fault Refusal :=
  .next (routineSettypep2 config a imm s)

/-- `x[A] <- x[A] | sext_16(imm)` (R116). -/
def routineSetstatus (c : Config) (a : Reg) (imm : Half) (s : State) : State :=
  advance (writeReg c a (setBits (readReg c s a) (sext16 imm)) s)

/-- `setstatus A, imm` (R116). -/
def execSetstatus (a : Reg) (imm : Half) (s : State) : Host.Outcome State Fault Refusal :=
  .next (routineSetstatus config a imm s)

/-- `x[A] <- x[A] & ~sext_16(imm)` (R117). -/
def routineResetstatus (c : Config) (a : Reg) (imm : Half) (s : State) : State :=
  advance (writeReg c a (clearBits (readReg c s a) (sext16 imm)) s)

/-- `resetstatus A, imm` (R117). -/
def execResetstatus (a : Reg) (imm : Half) (s : State) : Host.Outcome State Fault Refusal :=
  .next (routineResetstatus config a imm s)

/-- `x[A] <- sext_16(imm)` (R118). -/
def routineSeti (c : Config) (a : Reg) (imm : Half) (s : State) : State :=
  advance (writeReg c a (sext16 imm) s)

/-- `seti A, imm` (R118). -/
def execSeti (a : Reg) (imm : Half) (s : State) : Host.Outcome State Fault Refusal := .next (routineSeti config a imm s)

end Sys2Proof.Machine
end

