-- ==== Sys2Proof/Machine/Lookup.lean ====
section
/-!
DEFINITION. The table-lookup instructions (42_lookup.md R130 to R133).
-/

namespace Sys2Proof.Machine

/-- The super-effective (attacker, defender) pairs: Fire on Grass, Water on Fire, Grass on Water, Electric on
Water (R131). -/
def superEffective : List (Word × Word) := [(1, 4), (2, 1), (4, 2), (3, 2)]

/-- The not-very-effective pairs: Fire on Water, Water on Grass, Grass on Fire (R131). -/
def notVeryEffective : List (Word × Word) := [(1, 2), (2, 4), (4, 1)]

/-- Whether a pair of register values is one of the list, each compared on all 32 bits (R16). -/
def pairIn (l : List (Word × Word)) (att dfn : Word) : Bool :=
  l.any fun p => eqWord att p.1 && eqWord dfn p.2

/-- The power after the lookup; every pair that is not listed is neutral (R131, R133). -/
def effectivePower (att dfn power : Word) : Word :=
  if pairIn superEffective att dfn then mul2 power
  else if pairIn notVeryEffective att dfn then div2t power
  else power

/-- The power is `x[A]`, the defender type `x[B]`, the attacker type `x[14]`, all read before the write (R25, R131). -/
def routineTypeeff (c : Config) (a b : Reg) (s : State) : State :=
  advance (writeReg c a (effectivePower (readReg c s attackerSlot) (readReg c s b) (readReg c s a)) s)

/-- `typeeff A, B` (R131). -/
def execTypeeff (a b : Reg) (s : State) : Host.Outcome State Fault Refusal := .next (routineTypeeff config a b s)

/-- The bonus of an item code, compared on all 32 bits (R16, R132). -/
def itemBonus (item : Word) : Word :=
  if eqWord item 1#32 then 1#32
  else if eqWord item 2#32 then 3#32
  else if eqWord item 3#32 then 5#32
  else 0#32

/-- `x[A] <- x[A] + bonus` (R132). -/
def routineBall (c : Config) (a b : Reg) (s : State) : State :=
  advance (writeReg c a (add (readReg c s a) (itemBonus (readReg c s b))) s)

/-- `ball A, B` (R132). -/
def execBall (a b : Reg) (s : State) : Host.Outcome State Fault Refusal := .next (routineBall config a b s)

end Sys2Proof.Machine
end

