-- ==== Sys2Proof/Machine/RegisterAlu.lean ====
section
/-!
DEFINITION. The register-to-register ALU instructions (40_register_alu.md R100 to R104). A routine is the execution
routine of one descriptor for any parameters; the meaning beside it is that routine on the running machine. Every routine
is total (R19).
-/

namespace Sys2Proof.Machine

/-- `x[A] <- x[A] - x[B]`: a subtraction, whatever the mnemonic says (R101). -/
def routineMove (c : Config) (a b : Reg) (s : State) : State :=
  advance (writeReg c a (sub (readReg c s a) (readReg c s b)) s)

/-- `move A, B` (R101). -/
def execMove (a b : Reg) (s : State) : Host.Outcome State Fault Refusal := .next (routineMove config a b s)

/-- `x[A] <- 0` (R102). -/
def routineZerohp (c : Config) (a : Reg) (s : State) : State :=
  advance (writeReg c a 0x00000000#32 s)

/-- `zerohp A` (R102). -/
def execZerohp (a : Reg) (s : State) : Host.Outcome State Fault Refusal := .next (routineZerohp config a s)

/-- `x[A] <- x[B]` (R103). -/
def routineTemppower (c : Config) (a b : Reg) (s : State) : State :=
  advance (writeReg c a (readReg c s b) s)

/-- `temppower A, B` (R103). -/
def execTemppower (a b : Reg) (s : State) : Host.Outcome State Fault Refusal := .next (routineTemppower config a b s)

/-- `x[A] <- mul2(x[A])` (R104). -/
def routineCrit (c : Config) (a : Reg) (s : State) : State :=
  advance (writeReg c a (mul2 (readReg c s a)) s)

/-- `crit A` (R104). -/
def execCrit (a : Reg) (s : State) : Host.Outcome State Fault Refusal := .next (routineCrit config a s)

end Sys2Proof.Machine
end

