-- ==== Sys2Proof/Machine/Rng.lean ====
section
/-!
DEFINITION. The pseudo-random generator (44_rng.md R150 to R154).
-/

namespace Sys2Proof.Machine

/-- `next(s) = word((unsigned(s) * 1103515245 + 12345) mod 2^31)` (R150, R151). -/
def lcgNext (s : Word) : Word := word (((1103515245 * unsigned s + 12345) % 2 ^ 31 : Nat) : Int)

/-- The output of a seed, `(seed >> 1) & 0x7FFF`: its bits 15:1, zero-extended (R152). -/
def lcgOutput (s : Word) : Word := zext16 (s.extractLsb' 1 15)

/-- The seed steps first and the output is taken from the new seed (R152). -/
def routineRng (c : Config) (a : Reg) (s : State) : State :=
  let seed := lcgNext s.seed
  advance (writeReg c a (lcgOutput seed) (s.withSeed seed))

/-- `rng A` (R152). -/
def execRng (a : Reg) (s : State) : Host.Outcome State Fault Refusal := .next (routineRng config a s)

end Sys2Proof.Machine
end

