-- ==== Sys2Proof/Machine/Cycle.lean ====
section
/-!
DEFINITION. One step of the machine for any parameters (30_encoding.md R77), and the outputs of the block during it
(10_state.md R38).
-/

namespace Sys2Proof.Machine

/-- The execution routine of each descriptor (R1 b, R77). -/
def runRoutine (c : Config) (i : Instr) (s : State) : State :=
  match i with
  | .move a b => routineMove c a b s
  | .heal a imm => routineHeal c a imm s
  | .settypep1 a imm => routineSettypep1 c a imm s
  | .settypep2 a imm => routineSettypep2 c a imm s
  | .buff a imm => routineBuff c a imm s
  | .debuff a imm => routineDebuff c a imm s
  | .inspect a => routineInspect c a s
  | .zerohp a => routineZerohp c a s
  | .setstatus a imm => routineSetstatus c a imm s
  | .resetstatus a imm => routineResetstatus c a imm s
  | .temppower a b => routineTemppower c a b s
  | .typeeff a b => routineTypeeff c a b s
  | .crit a => routineCrit c a s
  | .ball a b => routineBall c a b s
  | .catchBr a off => routineCatch c a off s
  | .rng a => routineRng c a s
  | .seti a imm => routineSeti c a imm s

/-- One transaction of the block on the word `instr` (R38, R77): decode and run one routine, or take `DecodeFail`. -/
def transact (c : Config) (run : Instr → State → Host.Outcome State Fault Refusal) (instr : Word) (s : State) :
    Host.Outcome State Fault Refusal :=
  match decodeWith c instr with
  | .ok i => run i s
  | .error _ => .next (raiseDecodeFail instr s)

/-- `Step` (R77), the routines being given: the end test, the fetch, the transaction. A machine that is not Running
takes no step (R33): a halted one stays as it is, a faulted one answers its recorded reason (log entries 11, 12). -/
def cycle (c : Config) (run : Instr → State → Host.Outcome State Fault Refusal) (s : State) :
    Host.Outcome State Fault Refusal :=
  match s.status with
  | .halted => .next s
  | .fault instr pc => .fault (stopReason instr pc)
  | .running =>
    match fetch c s with
    | .endOfProgram => .next (haltRun s)
    | .outside => .next (raiseFetchFault s)
    | .word instr => transact c run instr s

/-- `Step` for any parameters. -/
def stepWith (c : Config) (s : State) : Host.Outcome State Fault Refusal :=
  cycle c (fun i t => .next (runRoutine c i t)) s

/-- The instruction the next step runs, if it runs one. -/
def executed (c : Config) (s : State) : Option Instr :=
  match s.status, fetch c s with
  | .running, .word instr => (decodeWith c instr).toOption
  | _, _ => none

/-- The output ports of R38 during one step. A valid bit and what it makes valid are one optional value; the operand is
given only where the branch is requested, the line only where the console write is made (log entry 14). -/
structure Outputs where
  /-- `pc`, the fetch address. -/
  pc : Word
  /-- `illegal`: no descriptor matches `instr`. -/
  illegal : Bool
  /-- `branch_req` with `branch_operand`. -/
  branch : Option Half
  /-- `con_valid` with `con_index` and `con_value`. -/
  con : Option (Reg × Word)
deriving DecidableEq, Repr

/-- The branch request of an instruction (R140, R141). -/
def branchRequest (c : Config) (i : Instr) (s : State) : Option Half :=
  match i with
  | .catchBr a off => if branchTaken c a s then some off else none
  | _ => none

/-- The console write of an instruction (R160). -/
def consoleWrite (c : Config) (i : Instr) (s : State) : Option (Reg × Word) :=
  match i with
  | .inspect a => some (a, readReg c s a)
  | _ => none

/-- The outputs of the transaction on `instr` (R38). -/
def outputs (c : Config) (instr : Word) (s : State) : Outputs :=
  match decodeWith c instr with
  | .ok i => ⟨s.pc, false, branchRequest c i s, consoleWrite c i s⟩
  | .error _ => ⟨s.pc, true, none, none⟩

end Sys2Proof.Machine
end

