-- ==== Sys2Proof/Machine/Dispatch.lean ====
section
/-! DEFINITION. Dispatch: one arm for each of the 17 instructions (30_encoding.md R77). -/

namespace Sys2Proof.Machine

def exec (i : Instr) (s : State) : Host.Outcome State Fault Refusal :=
  match i with
  | .move a b => Sys2Proof.Machine.execMove a b s
  | .heal a imm => Sys2Proof.Machine.execHeal a imm s
  | .settypep1 a imm => Sys2Proof.Machine.execSettypep1 a imm s
  | .settypep2 a imm => Sys2Proof.Machine.execSettypep2 a imm s
  | .buff a imm => Sys2Proof.Machine.execBuff a imm s
  | .debuff a imm => Sys2Proof.Machine.execDebuff a imm s
  | .inspect a => Sys2Proof.Machine.execInspect a s
  | .zerohp a => Sys2Proof.Machine.execZerohp a s
  | .setstatus a imm => Sys2Proof.Machine.execSetstatus a imm s
  | .resetstatus a imm => Sys2Proof.Machine.execResetstatus a imm s
  | .temppower a b => Sys2Proof.Machine.execTemppower a b s
  | .typeeff a b => Sys2Proof.Machine.execTypeeff a b s
  | .crit a => Sys2Proof.Machine.execCrit a s
  | .ball a b => Sys2Proof.Machine.execBall a b s
  | .catchBr a off => Sys2Proof.Machine.execCatch a off s
  | .rng a => Sys2Proof.Machine.execRng a s
  | .seti a imm => Sys2Proof.Machine.execSeti a imm s

end Sys2Proof.Machine
end

