-- ==== Sys2Proof/Machine/Step.lean ====
section
/-! DEFINITION. The running machine's step (30_encoding.md R77), and the placing of a word where it fetches next. -/

namespace Sys2Proof.Machine

/-- One step of the machine. -/
def step (s : State) : Host.Outcome State Fault Refusal := cycle config exec s

/-- The state with the instruction of `nbits` bits `w` stored where `step` fetches next (log entry 16). -/
def State.withFetchWord (s : State) (nbits w : Nat) : State :=
  placeWord config (BitVec.ofNat 32 (w % 2 ^ nbits)) s

end Sys2Proof.Machine
end

