-- ==== Sys2Proof/Safety.lean ====
section
/-!
DEFINITION. The terms in which claims are stated: runs and what they execute, safe and finished runs (60_exceptions.md
R171, 70_reset_and_hazards.md R199, R200), well-formed states, and what "unchanged" means.
-/

namespace Sys2Proof

open Sys2Proof.Machine

/-! ## Runs -/

/-- An instruction executed, with the state it was executed in. -/
structure Event where
  instr : Instr
  before : State
deriving DecidableEq, Repr

/-- What one step executes: one instruction, or none where the step halts or faults. -/
def eventOf (c : Config) (s : State) : List Event :=
  match executed c s with
  | some i => [⟨i, s⟩]
  | none => []

/-- `Run c s tr t`: some number of steps lead from `s` to `t` and execute the events `tr`, in order. -/
inductive Run (c : Config) : State → List Event → State → Prop where
  | stop (s : State) : Run c s [] s
  | step {s t u : State} {tr : List Event} (h : stepWith c s = .next t) (rest : Run c t tr u) :
      Run c s (eventOf c s ++ tr) u

/-- Whether an event executes `rng`. -/
def Event.isRng (e : Event) : Bool := e.instr.mnemonic == .rng

/-- The console bytes of an event: one line for `inspect`, else nothing (R160, R161). -/
def Event.line (c : Config) (e : Event) : List Byte :=
  match e.instr with
  | .inspect a => lineBytes c a (readReg c e.before a)
  | _ => []

/-! ## Safe and finished runs -/

/-- A safe start state: no run from it reaches a fault. -/
def NeverFaults (c : Config) (s : State) : Prop :=
  ∀ tr t, Run c s tr t → State.faulted t = false

/-- What the host reads back after a normal end: registers, seed and console (R200). The registers are the stored cells:
where `REG0_HARDWIRED_ZERO` is taken and cell 0 is not zero, the cell of register 0 and not the zero a read gives. DESIGN
CHOICE, log entry 9. -/
structure FinalState where
  regs : Vector Word 32
  seed : Word
  console : List Byte
deriving DecidableEq, Repr

/-- The final state of a halted machine (R199 a, R200). -/
def finalState (s : State) : Option FinalState :=
  match s.status with
  | .halted => some ⟨s.regs, s.seed, s.console⟩
  | _ => none

/-- The run from `s` ends normally with the final state `f`. -/
def EndsWith (c : Config) (s : State) (f : FinalState) : Prop :=
  ∃ tr t, Run c s tr t ∧ finalState t = some f

/-! ## Well-formed states -/

/-- A resolver that keeps the program counter a multiple of 4 (R29, R143). -/
def ResolverAligned (c : Config) : Prop :=
  ∀ (pc : Word) (off : Half), pc.toNat % 4 = 0 → (c.resolve pc off).toNat % 4 = 0

/-- What the status says of a state is true of it (R33, R171, R199). -/
def StatusTrue (c : Config) (s : State) : Prop :=
  match s.status with
  | .running => True
  | .halted => s.pc.toNat = s.progEnd
  | .fault none p => p = s.pc ∧ fetch c s = .outside
  | .fault (some w) p => p = s.pc ∧ fetch c s = .word w ∧ ∃ r, decodeWith c w = .error r

/-- A well-formed state: memory in canonical form and inside the program, the program of R41, an aligned pc (R29), a
true status. -/
structure StateWf (c : Config) (s : State) : Prop where
  canonical : Memory.wf s.imem = true
  inside : ∀ x ∈ s.imem, s.progBase.toNat ≤ x.1 ∧ x.1 < s.progEnd
  baseAligned : s.progBase.toNat % 4 = 0
  fits : s.progEnd < 2 ^ 32
  pcAligned : s.pc.toNat % 4 = 0
  status : StatusTrue c s

/-! ## Decimal text (R162, R163) -/

/-- The number a list of decimal digits denotes. -/
def decimalValue (ds : List Char) : Nat := ds.foldl (fun n d => 10 * n + (d.toNat - 48)) 0

/-- `ds` is `n` in decimal: digits only, at least one, no leading zero. -/
def IsDecimalOf (ds : List Char) (n : Nat) : Prop :=
  (∀ d ∈ ds, 48 ≤ d.toNat ∧ d.toNat ≤ 57) ∧ ds ≠ [] ∧ (ds.head? = some '0' → ds = ['0']) ∧ decimalValue ds = n

/-! ## Unchanged -/

/-- The loaded program is the same, every byte of it included (R51). -/
def SameProgram (s t : State) : Prop :=
  t.progBase = s.progBase ∧ t.progLen = s.progLen ∧ t.imem = s.imem ∧
    ∀ a, Memory.readByte t.imem a = Memory.readByte s.imem a

/-- Between `s` and `t` nothing changed but register `a` and the pc, which advanced (R30). -/
def OnlyRegister (a : Reg) (s t : State) : Prop :=
  (∀ r, r ≠ a → readReg config t r = readReg config s r) ∧ t.pc = s.pc + 4#32 ∧ t.seed = s.seed ∧
    t.console = s.console ∧ t.status = s.status ∧ SameProgram s t

/-- Every register is the same. -/
def SameRegs (s t : State) : Prop :=
  ∀ r, readReg config t r = readReg config s r

end Sys2Proof
end

