-- ==== Sys2Proof/Certificates/Slice0/Obligations.lean ====
section
/-!
DEFINITION. The statements. Each docstring names the sentence of the spec it formalises; where that sentence is the spec's
own decision (D<n> of 92_eei_decisions.md) or the model's choice, it says so and names the log entry.

`exec`, `step`, `decode`, `encode` and `config` are the running machine, every open parameter at the spec's default
(log entry 19); a statement over `c : Config` holds for every value of every parameter.
-/

open Sys2Proof Sys2Proof.Machine

/-! ## Encoding and decode -/

/-- Encoding followed by decode gives the same instruction and operands (30_encoding.md, section 7), for every
instruction, every operand and every parameter. -/
def Obligations.DecodeInvertsEncode : Prop :=
  ∀ (c : Config) (i : Instr), decodeWith c (encodeWith c i) = .ok i

/-- Re-encoding a decoded word clears exactly its ignored bits, so a canonical word comes back and a non-canonical one
loses the ignored bits (30_encoding.md, section 7). -/
def Obligations.ReencodingClearsIgnoredBits : Prop :=
  ∀ (c : Config) (w : Word) (i : Instr), decodeWith c w = .ok i →
    encodeWith c i = w &&& ~~~(ignoredBits c i.mnemonic)

/-- R64: a descriptor is selected by opcode alone, but for opcode 000000, which funct splits; as match and mask, an
R_FORMAT row has mask 0xFC00003F and every other row 0xFC000000; the keys are distinct. -/
def Obligations.WordSelectsDescriptorByMatchAndMask : Prop :=
  (∀ d ∈ catalog, ∀ w : Word,
    (∃ i, decode w = .ok i ∧ i.mnemonic = d.mnemonic) ↔ w &&& d.mask = d.pattern) ∧
  (∀ d ∈ catalog, (d.format = .rFormat ↔ d.opcode = 0b000000#6) ∧
    (d.format = .rFormat → d.mask = 0xFC00003F#32) ∧ (d.format ≠ .rFormat → d.mask = 0xFC000000#32)) ∧
  (∀ d ∈ catalog, ∀ e ∈ catalog, ∀ w : Word, d.selects w = true → e.selects w = true → d = e)

/-- The words without a row are exactly those with an opcode outside the eleven or, under opcode 000000, a funct outside
1 to 7 (30_encoding.md, section 5). -/
def Obligations.WordsWithoutRowAreRejected : Prop :=
  ∀ w : Word, (∃ r, decode w = .error r) ↔
    w.extractLsb' 26 6 ∉ [0x00#6, 0x04#6, 0x08#6, 0x09#6, 0x0A#6, 0x0B#6, 0x0C#6, 0x0D#6, 0x0E#6, 0x0F#6, 0x29#6] ∨
    (w.extractLsb' 26 6 = 0x00#6 ∧ w.extractLsb' 0 6 ∉ [0x01#6, 0x02#6, 0x03#6, 0x04#6, 0x05#6, 0x06#6, 0x07#6])

/-- A word that differs from another only in ignored bits is the same instruction with the same operands: the decision D5
(30_encoding.md, section 2; log entry 5). -/
def Obligations.IgnoredBitsDoNotChangeDecoding : Prop :=
  ∀ (w v : Word) (i : Instr), decode w = .ok i → (w ^^^ v) &&& ~~~(ignoredBits config i.mnemonic) = 0#32 →
    decode v = .ok i

/-- With `UNUSED_FIELD_POLICY = check` the canonical words are the only instructions (30_encoding.md, section 2, D5). -/
def Obligations.CheckPolicyAcceptsCanonicalWordsOnly : Prop :=
  ∀ c : Config, c.unusedFieldPolicy = .check →
    ∀ (w : Word) (i : Instr), decodeWith c w = .ok i ↔ w = encodeWith c i

/-- Words of the examples of 95_test_vectors.md decode as that file says, one of each family. -/
def Obligations.SpecWordsDecode : Prop :=
  decode 0x015F47C1#32 = .ok (.move 8#5 10#5) ∧ decode 0x2BE80005#32 = .ok (.buff 8#5 5#16) ∧
  decode 0x3D1F0064#32 = .ok (.seti 8#5 0x64#16) ∧ decode 0xA4110004#32 = .ok (.settypep2 17#5 4#16) ∧
  decode 0x01E05005#32 = .ok (.typeeff 10#5 15#5) ∧ decode 0x1220FFFC#32 = .ok (.catchBr 17#5 0xFFFC#16) ∧
  decode 0x3BE8FFFF#32 = .ok (.rng 8#5) ∧ decode 0x03200002#32 = .ok (.inspect 25#5) ∧
  decode 0x00000000#32 = .error .unassignedFunct ∧ decode 0xFFFFFFFF#32 = .error .unassignedOpcode

/-- Bytes: the first four bytes are the first word in the order of the parameter `IMEM_BYTE_ORDER`, the rest is handed
back, and in the default order byte 0 is `instr[7:0]` (20_memory.md, section 2, D9; log entry 7). -/
def Obligations.BytesDecodeAsTheirWord : Prop :=
  (∀ (c : Config) (w : Word) (rest : List Byte),
    decodeBytes c (bytesOfWord c.imemByteOrder w ++ rest) = (decodeWith c w).map fun i => (i, rest)) ∧
  (∀ b0 b1 b2 b3 : Byte, wordOfBytes config.imemByteOrder b0 b1 b2 b3 = b3 ++ b2 ++ b1 ++ b0) ∧
  (∀ (c : Config) (bs : List Byte), bs.length < 4 → decodeBytes c bs = .error .truncated)

/-! ## Arithmetic -/

/-- Add and subtract (00_scope.md, section 6): both wrap modulo 2^32, and nothing traps: `move`, `heal` and `debuff`
complete on all operands. -/
def Obligations.AddAndSubtractWrap : Prop :=
  (∀ a b : Word, (add a b).toNat = (a.toNat + b.toNat) % 2 ^ 32 ∧ (add a b).toInt = (a.toInt + b.toInt).bmod (2 ^ 32)) ∧
  (∀ a b : Word, ((sub a b).toNat : Int) = ((a.toNat : Int) - b.toNat) % 2 ^ 32 ∧
    (sub a b).toInt = (a.toInt - b.toInt).bmod (2 ^ 32)) ∧
  (∀ (a b : Reg) (imm : Half) (s : State), (∃ t, exec (.move a b) s = .next t) ∧ (∃ t, exec (.heal a imm) s = .next t) ∧
    (∃ t, exec (.debuff a imm) s = .next t))

/-- Sign extension: bits 15:0 are the operand, bits 31:16 its bit 15; the signed value is kept; it is a shift left and an
arithmetic shift right by 16 (00_scope.md, section 6, sign extension). -/
def Obligations.SignExtensionKeepsTheSignedValue : Prop :=
  ∀ v : Half, (sext16 v).extractLsb' 0 16 = v ∧ (∀ k, 16 ≤ k → k < 32 → (sext16 v).getLsbD k = v.getLsbD 15) ∧
    (sext16 v).toInt = v.toInt ∧ sext16 v = (v.setWidth 32 <<< 16).sshiftRight 16

/-- R13: doubling is `word(2*signed(a))`, `a + a` and a shift left by one; it wraps; `crit` and the super-effective case
of `typeeff` use it. -/
def Obligations.DoublingIsAddAndShift : Prop :=
  (∀ a : Word, mul2 a = word (2 * signed a) ∧ mul2 a = a + a ∧ mul2 a = a <<< 1) ∧
  (mul2 0x40000000#32 = 0x80000000#32 ∧ mul2 0x80000000#32 = 0#32 ∧ mul2 0xFFFFFFFF#32 = 0xFFFFFFFE#32) ∧
  ∀ (a b : Reg) (s : State), (∃ t, exec (.crit a) s = .next t ∧ readReg config t a = mul2 (readReg config s a)) ∧
    (readReg config s 14#5 = 1#32 → readReg config s b = 4#32 →
      ∃ t, exec (.typeeff a b) s = .next t ∧ readReg config t a = mul2 (readReg config s a))

/-- Halving (00_scope.md, section 6) rounds toward zero: the floor of the half for a value not negative, the ceiling for
a negative one, `(a + a[31]) >>a 1` (the spec marks this form as its own inference); it cannot overflow and is not the
plain arithmetic shift; the not-very-effective case of `typeeff` uses it. -/
def Obligations.HalvingTruncatesTowardZero : Prop :=
  (∀ a : Word, (div2t a).toInt = a.toInt.tdiv 2 ∧ (0 ≤ a.toInt → (div2t a).toInt = a.toInt / 2) ∧
    (a.toInt < 0 → (div2t a).toInt = -((-a.toInt) / 2)) ∧
    div2t a = (a + if a.msb then 1#32 else 0#32).sshiftRight 1) ∧
  (div2t 0xFFFFFFFF#32 = 0#32 ∧ BitVec.sshiftRight 0xFFFFFFFF#32 1 = 0xFFFFFFFF#32) ∧
  ([10#32, 7#32, 1#32, 0#32, word (-1), word (-3), word (-7), word (-2147483648), word 2147483647].map div2t =
    [5#32, 3#32, 0#32, 0#32, 0#32, word (-1), word (-3), word (-1073741824), word 1073741823]) ∧
  ∀ (a b : Reg) (s : State), readReg config s 14#5 = 1#32 → readReg config s b = 2#32 →
    ∃ t, exec (.typeeff a b) s = .next t ∧ readReg config t a = div2t (readReg config s a)

/-- R17: `setstatus` and `resetstatus` act on each bit by itself, and an immediate with bit 15 set touches bits 31:16
too. -/
def Obligations.StatusMasksActOnEachBit : Prop :=
  ∀ (a : Reg) (m : Half) (s : State),
    (∃ t, exec (.setstatus a m) s = .next t ∧ ∀ k, k < 32 →
      (readReg config t a).getLsbD k = ((readReg config s a).getLsbD k || m.getLsbD (min k 15))) ∧
    (∃ t, exec (.resetstatus a m) s = .next t ∧ ∀ k, k < 32 →
      (readReg config t a).getLsbD k = ((readReg config s a).getLsbD k && !m.getLsbD (min k 15)))

/-- The LCG step (44_rng.md) is the residue modulo 2^31, bit 31 clear, and the same in 32-bit wrapping arithmetic with
the mask and in unbounded integers, signed or unsigned (the spec marks this sameness as its own inference). -/
def Obligations.LcgStepIsTheSameInEveryArithmetic : Prop :=
  ∀ s : Word, (lcgNext s).toNat = (1103515245 * s.toNat + 12345) % 2 ^ 31 ∧ (lcgNext s).getLsbD 31 = false ∧
    lcgNext s = (1103515245#32 * s + 12345#32) &&& 0x7FFFFFFF#32 ∧
    ((lcgNext s).toNat : Int) = (1103515245 * signed s + 12345) % 2 ^ 31

/-! ## The instructions: layout, canonical word, result, frame -/

/-- R101: `move A, B` subtracts the second operand from the first. -/
def Obligations.MoveSubtractsSecondFromFirst : Prop :=
  ∀ (a b rt : Reg) (u : BitVec 5), decode (0b000000#6 ++ b ++ rt ++ a ++ u ++ 0b000001#6) = .ok (.move a b) ∧
    encode (.move a b) = 0b000000#6 ++ b ++ 0#5 ++ a ++ 0#5 ++ 0b000001#6 ∧
    ∀ s : State, ∃ t, exec (.move a b) s = .next t ∧
      readReg config t a = readReg config s a - readReg config s b ∧ OnlyRegister a s t

/-- R102: `zerohp A` writes zero, whatever the state. -/
def Obligations.ZerohpWritesZero : Prop :=
  ∀ (a rs rt : Reg) (u : BitVec 5), decode (0b000000#6 ++ rs ++ rt ++ a ++ u ++ 0b000011#6) = .ok (.zerohp a) ∧
    encode (.zerohp a) = 0b000000#6 ++ 0#5 ++ 0#5 ++ a ++ 0#5 ++ 0b000011#6 ∧
    ∀ s : State, ∃ t, exec (.zerohp a) s = .next t ∧ readReg config t a = 0#32 ∧ OnlyRegister a s t

/-- R103: `temppower A, B` copies the second operand to the first; the second is unchanged. -/
def Obligations.TemppowerCopiesSecondToFirst : Prop :=
  ∀ (a b rt : Reg) (u : BitVec 5), decode (0b000000#6 ++ b ++ rt ++ a ++ u ++ 0b000100#6) = .ok (.temppower a b) ∧
    encode (.temppower a b) = 0b000000#6 ++ b ++ 0#5 ++ a ++ 0#5 ++ 0b000100#6 ∧
    ∀ s : State, ∃ t, exec (.temppower a b) s = .next t ∧ readReg config t a = readReg config s b ∧
      readReg config t b = readReg config s b ∧ OnlyRegister a s t

/-- R104: `crit A` doubles, wrapping; twice is times 4. -/
def Obligations.CritDoublesItsRegister : Prop :=
  ∀ (a rs rt : Reg) (u : BitVec 5), decode (0b000000#6 ++ rs ++ rt ++ a ++ u ++ 0b000110#6) = .ok (.crit a) ∧
    encode (.crit a) = 0b000000#6 ++ 0#5 ++ 0#5 ++ a ++ 0#5 ++ 0b000110#6 ∧
    ∀ s : State, ∃ t, exec (.crit a) s = .next t ∧ readReg config t a = word (2 * signed (readReg config s a)) ∧
      OnlyRegister a s t ∧
      ∃ u, exec (.crit a) t = .next u ∧ readReg config u a = word (4 * signed (readReg config s a))

/-- `heal A, imm` adds the sign-extended immediate (41_immediate_alu.md, `heal`; its register field is decision D3, log
entry 4). -/
def Obligations.HealAddsSignedImmediate : Prop :=
  ∀ (a rs : Reg) (imm : Half), decode (0b001000#6 ++ rs ++ a ++ imm) = .ok (.heal a imm) ∧
    encode (.heal a imm) = 0b001000#6 ++ 0#5 ++ a ++ imm ∧
    ∀ s : State, ∃ t, exec (.heal a imm) s = .next t ∧
      readReg config t a = readReg config s a + imm.signExtend 32 ∧ OnlyRegister a s t

/-- `buff A, imm` computes what `heal` computes (41_immediate_alu.md, `buff`; D3, log entry 4). -/
def Obligations.BuffAddsSignedImmediate : Prop :=
  ∀ (a rs : Reg) (imm : Half), decode (0b001010#6 ++ rs ++ a ++ imm) = .ok (.buff a imm) ∧
    encode (.buff a imm) = 0b001010#6 ++ 0#5 ++ a ++ imm ∧
    ∀ s : State, exec (.buff a imm) s = exec (.heal a imm) s ∧ ∃ t, exec (.buff a imm) s = .next t ∧
      readReg config t a = readReg config s a + imm.signExtend 32 ∧ OnlyRegister a s t

/-- `debuff A, imm` subtracts the sign-extended immediate (41_immediate_alu.md, `debuff`; D3, log entry 4). -/
def Obligations.DebuffSubtractsSignedImmediate : Prop :=
  ∀ (a rs : Reg) (imm : Half), decode (0b001011#6 ++ rs ++ a ++ imm) = .ok (.debuff a imm) ∧
    encode (.debuff a imm) = 0b001011#6 ++ 0#5 ++ a ++ imm ∧
    ∀ s : State, ∃ t, exec (.debuff a imm) s = .next t ∧
      readReg config t a = readReg config s a - imm.signExtend 32 ∧ OnlyRegister a s t

/-- `settypep1 A, imm` writes register 14, whatever A is; the result is the same for all A (41_immediate_alu.md,
`settypep1`; D3, log entry 4). -/
def Obligations.Settypep1WritesTheAttackerSlot : Prop :=
  ∀ (a rs : Reg) (imm : Half), decode (0b001001#6 ++ rs ++ a ++ imm) = .ok (.settypep1 a imm) ∧
    encode (.settypep1 a imm) = 0b001001#6 ++ 0#5 ++ a ++ imm ∧
    ∀ s : State, (∀ q : Reg, exec (.settypep1 q imm) s = exec (.settypep1 a imm) s) ∧
      ∃ t, exec (.settypep1 a imm) s = .next t ∧ readReg config t 14#5 = imm.signExtend 32 ∧ OnlyRegister 14#5 s t

/-- `settypep2 A, imm` writes register 15, whatever A is (41_immediate_alu.md, `settypep2`; D3, log entry 4). -/
def Obligations.Settypep2WritesTheDefenderSlot : Prop :=
  ∀ (a rs : Reg) (imm : Half), decode (0b101001#6 ++ rs ++ a ++ imm) = .ok (.settypep2 a imm) ∧
    encode (.settypep2 a imm) = 0b101001#6 ++ 0#5 ++ a ++ imm ∧
    ∀ s : State, (∀ q : Reg, exec (.settypep2 q imm) s = exec (.settypep2 a imm) s) ∧
      ∃ t, exec (.settypep2 a imm) s = .next t ∧ readReg config t 15#5 = imm.signExtend 32 ∧ OnlyRegister 15#5 s t

/-- `setstatus A, imm` ORs the sign-extended immediate (41_immediate_alu.md, `setstatus`; D3, log entry 4). -/
def Obligations.SetstatusOrsSignedImmediate : Prop :=
  ∀ (a rs : Reg) (imm : Half), decode (0b001100#6 ++ rs ++ a ++ imm) = .ok (.setstatus a imm) ∧
    encode (.setstatus a imm) = 0b001100#6 ++ 0#5 ++ a ++ imm ∧
    ∀ s : State, ∃ t, exec (.setstatus a imm) s = .next t ∧
      readReg config t a = readReg config s a ||| imm.signExtend 32 ∧ OnlyRegister a s t

/-- `resetstatus A, imm` clears the bits of the sign-extended immediate (41_immediate_alu.md, `resetstatus`; D3, log
entry 4). -/
def Obligations.ResetstatusClearsSignedImmediate : Prop :=
  ∀ (a rs : Reg) (imm : Half), decode (0b001101#6 ++ rs ++ a ++ imm) = .ok (.resetstatus a imm) ∧
    encode (.resetstatus a imm) = 0b001101#6 ++ 0#5 ++ a ++ imm ∧
    ∀ s : State, ∃ t, exec (.resetstatus a imm) s = .next t ∧
      readReg config t a = readReg config s a &&& ~~~(imm.signExtend 32) ∧ OnlyRegister a s t

/-- R118: `seti A, imm` loads the sign-extended immediate into the register its rs field names, register 0 included. -/
def Obligations.SetiLoadsSignedImmediate : Prop :=
  ∀ (a rt : Reg) (imm : Half), decode (0b001111#6 ++ a ++ rt ++ imm) = .ok (.seti a imm) ∧
    encode (.seti a imm) = 0b001111#6 ++ a ++ 0#5 ++ imm ∧
    ∀ s : State, ∃ t, exec (.seti a imm) s = .next t ∧ readReg config t a = imm.signExtend 32 ∧
      (readReg config t a).toInt = imm.toInt ∧ OnlyRegister a s t

/-- R131: `typeeff A, B` doubles on the four super-effective pairs of (x[14], x[B]), halves toward zero on the three
not-very-effective ones, and leaves x[A] as it is on every other pair; all three are read before the write. -/
def Obligations.TypeeffAppliesTheEffectivenessTable : Prop :=
  ∀ (a b rt : Reg) (u : BitVec 5), decode (0b000000#6 ++ b ++ rt ++ a ++ u ++ 0b000101#6) = .ok (.typeeff a b) ∧
    encode (.typeeff a b) = 0b000000#6 ++ b ++ 0#5 ++ a ++ 0#5 ++ 0b000101#6 ∧
    ∀ s : State, ∃ t, exec (.typeeff a b) s = .next t ∧ OnlyRegister a s t ∧
      ((readReg config s 14#5, readReg config s b) ∈
          [((1#32, 4#32) : Word × Word), (2#32, 1#32), (4#32, 2#32), (3#32, 2#32)] →
        readReg config t a = word (2 * signed (readReg config s a))) ∧
      ((readReg config s 14#5, readReg config s b) ∈ [((1#32, 2#32) : Word × Word), (2#32, 4#32), (4#32, 1#32)] →
        signed (readReg config t a) = (signed (readReg config s a)).tdiv 2) ∧
      ((readReg config s 14#5, readReg config s b) ∉
          [((1#32, 4#32) : Word × Word), (2#32, 1#32), (4#32, 2#32), (3#32, 2#32), (1#32, 2#32), (2#32, 4#32),
            (4#32, 1#32)] →
        readReg config t a = readReg config s a)

/-- R132: `ball A, B` adds the bonus of the item code in x[B]: 1, 3 or 5 for the items 1, 2 and 3, else 0. -/
def Obligations.BallAddsTheItemBonus : Prop :=
  ∀ (a b rt : Reg) (u : BitVec 5), decode (0b000000#6 ++ b ++ rt ++ a ++ u ++ 0b000111#6) = .ok (.ball a b) ∧
    encode (.ball a b) = 0b000000#6 ++ b ++ 0#5 ++ a ++ 0#5 ++ 0b000111#6 ∧
    ∀ s : State, ∃ t, exec (.ball a b) s = .next t ∧ OnlyRegister a s t ∧
      (readReg config s b = 1#32 → readReg config t a = readReg config s a + 1#32) ∧
      (readReg config s b = 2#32 → readReg config t a = readReg config s a + 3#32) ∧
      (readReg config s b = 3#32 → readReg config t a = readReg config s a + 5#32) ∧
      (readReg config s b ∉ [1#32, 2#32, 3#32] → readReg config t a = readReg config s a)

/-- `catch A, target` requests the branch exactly when x[A] is greater than x[9], signed and strict, hands its operand on
unchanged, and changes nothing but the pc (43_branch.md, `catch`; the target is the resolver's, decision D10, log
entry 8; the signed reading is D21, log entry 18). -/
def Obligations.CatchBranchesOnSignedGreater : Prop :=
  ∀ (a rt : Reg) (off : Half), decode (0b000100#6 ++ a ++ rt ++ off) = .ok (.catchBr a off) ∧
    encode (.catchBr a off) = 0b000100#6 ++ a ++ 0#5 ++ off ∧
    ∀ s : State, ∃ t, exec (.catchBr a off) s = .next t ∧ SameRegs s t ∧ t.seed = s.seed ∧ t.console = s.console ∧
      t.status = s.status ∧ SameProgram s t ∧
      (signed (readReg config s a) > signed (readReg config s 9#5) →
        t.pc = s.pc + 4#32 + (off.signExtend 32 <<< 2) ∧ branchRequest config (.catchBr a off) s = some off) ∧
      (signed (readReg config s a) ≤ signed (readReg config s 9#5) →
        t.pc = s.pc + 4#32 ∧ branchRequest config (.catchBr a off) s = none)

/-- `rng A` steps the seed, then writes bits 15:1 of the new seed, a value in 0 to 32767; the rs field and the immediate
are ignored (44_rng.md, `rng`; its register field is decision D3, log entry 4). -/
def Obligations.RngStepsTheSeedAndWritesItsOutput : Prop :=
  ∀ (a rs : Reg) (imm : Half), decode (0b001110#6 ++ rs ++ a ++ imm) = .ok (.rng a) ∧
    encode (.rng a) = 0b001110#6 ++ 0#5 ++ a ++ 0#16 ∧
    ∀ s : State, ∃ t, exec (.rng a) s = .next t ∧ t.seed.toNat = (1103515245 * s.seed.toNat + 12345) % 2 ^ 31 ∧
      readReg config t a = (t.seed >>> 1) &&& 0x7FFF#32 ∧ (readReg config t a).toNat ≤ 32767 ∧
      (∀ r, r ≠ a → readReg config t r = readReg config s r) ∧ t.pc = s.pc + 4#32 ∧ t.console = s.console ∧
      t.status = s.status ∧ SameProgram s t

/-- `inspect A` appends one line with the register's name and signed value, in ASCII, and changes nothing else but the pc
(45_console.md, `inspect`; its register field is decision D4, log entry 17, its bytes D14, log entry 10). -/
def Obligations.InspectAppendsOneLine : Prop :=
  ∀ (a rt rd : Reg) (u : BitVec 5), decode (0b000000#6 ++ a ++ rt ++ rd ++ u ++ 0b000010#6) = .ok (.inspect a) ∧
    encode (.inspect a) = 0b000000#6 ++ a ++ 0#5 ++ 0#5 ++ 0#5 ++ 0b000010#6 ∧
    ∀ s : State, ∃ t, exec (.inspect a) s = .next t ∧ SameRegs s t ∧ t.pc = s.pc + 4#32 ∧ t.seed = s.seed ∧
      t.status = s.status ∧ SameProgram s t ∧
      t.console = s.console ++ ("Let's look at the stat here (".toList ++ registerName a ++ "): ".toList ++
        decText (readReg config s a) ++ ['\n']).map fun ch => BitVec.ofNat 8 ch.toNat

/-- The name of a register is `$t` and one digit for 8 to 15, `$s` and one digit for 16 to 19, `$r` and its index in
decimal for every other; a value is printed in signed decimal (45_console.md, sections on `Name` and `Dec`; the layout of
the number is decision D14, log entry 10). -/
def Obligations.NamesAndNumbersAreTheSpecsText : Prop :=
  (∀ r : Reg, (8 ≤ r.toNat → r.toNat ≤ 15 → ∃ ds, registerName r = '$' :: 't' :: ds ∧ IsDecimalOf ds (r.toNat - 8)) ∧
    (16 ≤ r.toNat → r.toNat ≤ 19 → ∃ ds, registerName r = '$' :: 's' :: ds ∧ IsDecimalOf ds (r.toNat - 16)) ∧
    (r.toNat < 8 ∨ 19 < r.toNat → ∃ ds, registerName r = '$' :: 'r' :: ds ∧ IsDecimalOf ds r.toNat)) ∧
  ∀ v : Word, (0 ≤ v.toInt → IsDecimalOf (decText v) v.toInt.toNat) ∧
    (v.toInt < 0 → ∃ ds, decText v = '-' :: ds ∧ IsDecimalOf ds (-v.toInt).toNat)

/-! ## Rules about all instructions -/

/-- The register use table: every instruction completes; it changes no register but the one the table names, the seed
only if it is `rng`, the console only if it is `inspect`, and neither the status nor the program (10_state.md, register
access by instruction). -/
def Obligations.EveryInstructionKeepsItsFrame : Prop :=
  ∀ (i : Instr) (s : State), ∃ t, exec i s = .next t ∧
    (∀ r, regWritten i ≠ some r → readReg config t r = readReg config s r) ∧
    (i.mnemonic ≠ .rng → t.seed = s.seed) ∧ (i.mnemonic ≠ .inspect → t.console = s.console) ∧
    t.status = s.status ∧ SameProgram s t

/-- The register use table, the reads: what an instruction writes and prints depends only on the registers the table says
it reads, and on the seed only if it is `rng` (10_state.md, register access by instruction, and read ports). So `catch`
does not depend on the seed, and `typeeff` not on register 15 unless it names it. -/
def Obligations.ResultsDependOnlyOnRegistersRead : Prop :=
  ∀ (i : Instr) (s u : State), (∀ r ∈ regsRead i, readReg config s r = readReg config u r) →
    (i.mnemonic = .rng → s.seed = u.seed) → ∃ t v, exec i s = .next t ∧ exec i u = .next v ∧
      (∀ r, regWritten i = some r → readReg config t r = readReg config v r) ∧
      (i.mnemonic = .rng → t.seed = v.seed) ∧ (s.pc = u.pc → t.pc = v.pc) ∧
      ∃ line, t.console = s.console ++ line ∧ v.console = u.console ++ line

/-- Every instruction other than a taken `catch` ends with pc + 4, a taken one at pc + 4 plus four times its signed
operand (10_state.md, program counter; decisions D7 and D10, log entries 6 and 8). -/
def Obligations.PcAdvancesUnlessCatchIsTaken : Prop :=
  ∀ (i : Instr) (s : State), ∃ t, exec i s = .next t ∧
    ((∀ a off, i = .catchBr a off → ¬ signed (readReg config s a) > signed (readReg config s 9#5)) →
      t.pc = s.pc + 4#32) ∧
    (∀ a off, i = .catchBr a off → signed (readReg config s a) > signed (readReg config s 9#5) →
      (t.pc.toNat : Int) = ((s.pc.toNat : Int) + 4 + 4 * off.toInt) % 2 ^ 32)

/-- The laws of 41_immediate_alu.md: `debuff` undoes `buff` and `heal` and they undo it; `setstatus` then `resetstatus`
of one mask leaves the bits outside the mask, which is the start value exactly where it had no bit of the mask; the
other order sets the mask (the spec marks the laws of the masks as its own inference, and corrects the source,
90_conflicts.md C3). -/
def Obligations.ImmediateInstructionLaws : Prop :=
  ∀ (a : Reg) (m : Half) (s : State),
    (∃ t u, exec (.buff a m) s = .next t ∧ exec (.debuff a m) t = .next u ∧ readReg config u a = readReg config s a) ∧
    (∃ t u, exec (.heal a m) s = .next t ∧ exec (.debuff a m) t = .next u ∧ readReg config u a = readReg config s a) ∧
    (∃ t u, exec (.debuff a m) s = .next t ∧ exec (.buff a m) t = .next u ∧ readReg config u a = readReg config s a) ∧
    (∃ t u, exec (.debuff a m) s = .next t ∧ exec (.heal a m) t = .next u ∧ readReg config u a = readReg config s a) ∧
    (∃ t u, exec (.setstatus a m) s = .next t ∧ exec (.resetstatus a m) t = .next u ∧
      readReg config u a = readReg config s a &&& ~~~(m.signExtend 32) ∧
      (readReg config u a = readReg config s a ↔ readReg config s a &&& m.signExtend 32 = 0#32)) ∧
    (∃ t u, exec (.resetstatus a m) s = .next t ∧ exec (.setstatus a m) t = .next u ∧
      readReg config u a = readReg config s a ||| m.signExtend 32)

/-! ## Parameters -/

/-- Whatever the resolver, a `catch` that is taken goes where it says and one that is not goes on; with the default one,
operand 0 goes to the next instruction, 0xFFFF to the `catch` itself, and an aligned pc stays aligned (43_branch.md,
branch resolver; decision D10, log entry 8). -/
def Obligations.TakenBranchGoesWhereTheResolverSays : Prop :=
  (∀ (c : Config) (a : Reg) (off : Half) (s : State),
    (gtSigned (readReg c s a) (readReg c s 9#5) = true → (runRoutine c (.catchBr a off) s).pc = c.resolve s.pc off) ∧
    (gtSigned (readReg c s a) (readReg c s 9#5) = false → (runRoutine c (.catchBr a off) s).pc = s.pc + 4#32)) ∧
  (∀ pc : Word, config.resolve pc 0#16 = pc + 4#32 ∧ config.resolve pc 0xFFFF#16 = pc) ∧ ResolverAligned config

/-- With `REG0_HARDWIRED_ZERO` register 0 reads zero after every instruction and its cell keeps its value; without it a
write of register 0 is an ordinary write (decision D13, log entry 9). -/
def Obligations.Register0FollowsItsParameter : Prop :=
  ∀ (c : Config) (s : State),
    (c.reg0HardwiredZero = true → ∀ i, readReg c (runRoutine c i s) 0#5 = 0#32 ∧ (runRoutine c i s).regs[0] = s.regs[0]) ∧
    (c.reg0HardwiredZero = false → ∀ v, readReg c (writeReg c 0#5 v s) 0#5 = v)

/-! ## Program memory, fetch, load -/

/-- Two memories in canonical form with the same bytes are equal (the model's form, log entry 1). -/
def Obligations.CanonicalMemoriesWithSameBytesAreEqual : Prop :=
  ∀ m n : List Host.Cell, Memory.wf m = true → Memory.wf n = true →
    (∀ a, Memory.readByte m a = Memory.readByte n a) → m = n

/-- After a load of a machine that is not faulted, a fetch at `PROG_BASE + 4*k` reads word `k`, a fetch just after the program finds its end, and a fetch
at any other address finds no word, in either byte order (20_memory.md, sections 1 and 2; decision D8, log entry 6). -/
def Obligations.FetchAfterLoadReadsTheProgram : Prop :=
  ∀ (c : Config) (p : Program) (s : State) (pc : Word), s.faulted = false → p.wf = true →
    (∀ k, (h : k < p.words.length) → pc.toNat = p.base.toNat + 4 * k →
      fetch c ((load c p s).withPc pc) = .word (p.words[k]'h)) ∧
    (pc.toNat = p.base.toNat + 4 * p.words.length → fetch c ((load c p s).withPc pc) = .endOfProgram) ∧
    ((∀ k, k ≤ p.words.length → pc.toNat ≠ p.base.toNat + 4 * k) → fetch c ((load c p s).withPc pc) = .outside)

/-- Loading the bytes of a program is loading the program, in either byte order (20_memory.md, section 2). -/
def Obligations.LoadingBytesIsLoadingWords : Prop :=
  ∀ (c : Config) (p : Program) (s : State),
    loadBytes c p.base (p.words.flatMap (bytesOfWord c.imemByteOrder)) s = load c p s

/-- A load of a machine that is Running or Halted starts the program at its base, so that the next fetch reads its first
word, and keeps seed, registers and console (70_reset_and_hazards.md, section 1; decision D12; that a halted machine starts
is deduced, log entry 21). A faulted machine is that of FaultIsLeftOnlyByReset. -/
def Obligations.LoadStartsTheProgramAndKeepsTheRest : Prop :=
  ∀ (c : Config) (p : Program) (s : State), s.faulted = false →
    (load c p s).pc = p.base ∧ (load c p s).status = .running ∧
    (load c p s).progBase = p.base ∧ (load c p s).progLen = p.words.length ∧ (load c p s).seed = s.seed ∧
    (load c p s).console = s.console ∧ (∀ r, readReg c (load c p s) r = readReg c s r) ∧
    (∀ w ws, p.wf = true → p.words = w :: ws → fetch c (load c p s) = .word w)

/-- The word placed where the machine fetches next is the instruction its next step runs, and placing it changes neither
register, seed nor console, nor an aligned pc. On a faulted machine it is the placing after `rst`, which alone leaves a
Fault (the model's operation, log entry 16). -/
def Obligations.PlacedWordRunsNext : Prop :=
  ∀ (s : State) (w : Nat) (i : Instr), Memory.wf s.imem = true → decode (BitVec.ofNat 32 w) = .ok i →
    step (s.withFetchWord 32 w) = exec i (s.withFetchWord 32 w) ∧
    (s.faulted = false → SameRegs s (s.withFetchWord 32 w) ∧ (s.withFetchWord 32 w).seed = s.seed ∧
      (s.withFetchWord 32 w).console = s.console ∧ (s.pc.toNat % 4 = 0 → (s.withFetchWord 32 w).pc = s.pc)) ∧
    (s.faulted = true → s.withFetchWord 32 w = (assertRst config s).withFetchWord 32 w)

/-! ## Reset and the host port -/

/-- What `rst` leaves: the seed 0x01234567, an empty console, status Running, the pc at `PROG_BASE`, every register zero,
and the program as it was (10_state.md, section 8; the register values are the default of decision D11, log entry 3; that
the program stays is log entry 2). In `State.reset` that `PROG_BASE` is 0x00400000, the default of decision D8 (log
entry 6). -/
def Obligations.ResetLeavesTheStatedValues : Prop :=
  (∀ s : State, (assertRst config s).seed = 0x01234567#32 ∧ (assertRst config s).console = [] ∧
    (assertRst config s).status = .running ∧ (assertRst config s).pc = s.progBase ∧
    (∀ r, readReg config (assertRst config s) r = 0#32) ∧ SameProgram s (assertRst config s)) ∧
  State.reset = assertRst config State.reset ∧ State.reset.pc = 0x00400000#32

/-- The host's write of a register is what its next read gives, and it changes nothing else (10_state.md, host access;
decision D19, log entry 15); that it acts on a halted machine too is the model's choice (log entry 21). A faulted machine
is that of FaultIsLeftOnlyByReset. -/
def Obligations.HostWriteIsReadBack : Prop :=
  ∀ (s : State) (r : Reg) (v : Word), s.faulted = false → hostRead config (hostWrite config r v s) r = v ∧
    (∀ q, q ≠ r → hostRead config (hostWrite config r v s) q = hostRead config s q) ∧
    (hostWrite config r v s).seed = s.seed ∧ (hostWrite config r v s).pc = s.pc ∧
    (hostWrite config r v s).console = s.console ∧ (hostWrite config r v s).status = s.status ∧
    SameProgram s (hostWrite config r v s)

/-! ## The step -/

/-- When the word at the pc decodes to an instruction, the step is that instruction (30_encoding.md, section 6). -/
def Obligations.StepRunsTheDecodedInstruction : Prop :=
  ∀ (s : State) (w : Word) (i : Instr), s.status = .running → fetch config s = .word w → decode w = .ok i →
    step s = exec i s

/-- The running machine is the parametric machine at the default parameters (00_scope.md, section 4). -/
def Obligations.StepIsTheParametricStepAtDefaults : Prop :=
  ∀ s : State, step s = stepWith config s

/-- Normal end: at the address just after the program the status becomes Halted and nothing else changes
(70_reset_and_hazards.md, section 5; decision D17). -/
def Obligations.EndOfProgramHalts : Prop :=
  ∀ s : State, s.status = .running → s.pc.toNat = s.progBase.toNat + 4 * s.progLen →
    step s = .next { s with status := .halted }

/-- A pc that is neither the end of the program nor the address of one of its words faults with that pc and no word, and
nothing else changes (70_reset_and_hazards.md, section 5; decision D17, log entry 13). -/
def Obligations.FetchOutsideTheProgramFaults : Prop :=
  ∀ s : State, s.status = .running →
    (∀ k, k ≤ s.progLen → s.pc.toNat ≠ s.progBase.toNat + 4 * k) → s.progBase.toNat % 4 = 0 →
    step s = .next { s with status := .fault none s.pc }

/-- `DecodeFail`: the status records the word and the pc, `illegal` is asserted, and nothing else changes
(60_exceptions.md, section 1; decision D6, log entry 11). -/
def Obligations.DecodeFailRecordsWordAndPc : Prop :=
  ∀ (s : State) (w : Word) (r : Reject), s.status = .running → fetch config s = .word w → decode w = .error r →
    step s = .next { s with status := .fault (some w) s.pc } ∧ (outputs config w s).illegal = true

/-- A machine that is not Running takes no step: a halted one stays as it is, a faulted one answers its recorded reason
(10_state.md, section 6; decision D6; the two answers are the model's, log entries 11 and 12). -/
def Obligations.StoppedMachineTakesNoStep : Prop :=
  ∀ s : State, (s.status = .halted → step s = .next s) ∧
    (∀ w p, s.status = .fault (some w) p → step s = .fault (.decodeFail w p)) ∧
    (∀ p, s.status = .fault none p → step s = .fault (.fetchOutside p))

/-- The outputs of a step agree with the state it leaves: `illegal` exactly where the step takes `DecodeFail`, a branch
request exactly where the pc is the resolver's, a console write exactly where one line was appended (10_state.md,
section 10; the ports are the spec's own rendering, decision D2, log entry 14). -/
def Obligations.OutputsAgreeWithTheStep : Prop :=
  ∀ (c : Config) (s t : State) (w : Word), s.status = .running → fetch c s = .word w → stepWith c s = .next t →
    (outputs c w s).pc = s.pc ∧ ((outputs c w s).illegal = true ↔ t.status = .fault (some w) s.pc) ∧
    (∀ off, (outputs c w s).branch = some off → off = w.extractLsb' 0 16 ∧ t.pc = c.resolve s.pc off) ∧
    ((outputs c w s).branch = none → t.pc = if (outputs c w s).illegal then s.pc else s.pc + 4#32) ∧
    (∀ r v, (outputs c w s).con = some (r, v) → v = readReg c s r ∧ t.console = s.console ++ lineBytes c r v) ∧
    ((outputs c w s).con = none → t.console = s.console)

/-! ## Invariants and runs -/

/-- The reset state is well formed; so is every state that a load of a well-formed program makes of a machine that is not
faulted or was well formed; and `rst` keeps a state well formed. -/
def Obligations.ResetAndLoadGiveWellFormedStates : Prop :=
  StateWf config State.reset ∧
  (∀ (c : Config) (p : Program) (s : State), p.wf = true → s.faulted = false ∨ StateWf c s → StateWf c (load c p s)) ∧
  (∀ (c : Config) (s : State), StateWf c s → StateWf c (assertRst c s))

/-- Every step of the running machine keeps the state well formed: memory canonical and inside the program, the program
aligned and not wrapping, the pc a multiple of 4, the status true. So does every step with any parameters whose resolver
keeps an aligned pc aligned. -/
def Obligations.EveryStepKeepsStateWellFormed : Prop :=
  (∀ s t : State, StateWf config s → step s = .next t → StateWf config t) ∧
  (∀ (c : Config) (s t : State), ResolverAligned c → StateWf c s → stepWith c s = .next t → StateWf c t)

/-- The seed's bit 31 is clear after every `rng`, and a step keeps it clear (10_state.md, section 2). -/
def Obligations.SeedBit31StaysClear : Prop :=
  (∀ (a : Reg) (s : State), ∃ t, exec (.rng a) s = .next t ∧ t.seed.getLsbD 31 = false) ∧
  (∀ s t : State, s.seed.getLsbD 31 = false → step s = .next t → t.seed.getLsbD 31 = false) ∧
  State.reset.seed.getLsbD 31 = false

/-- Determinism (44_rng.md): along any run the seed is the LCG iterated once for each `rng` executed, whatever else is
executed, and each `rng` writes the output of the next seed; so the k-th `rng` writes the k-th value of one sequence,
which from the reset seed begins as that file's table says (the spec marks the table as computed by itself). -/
def Obligations.SeedCountsTheRngExecuted : Prop :=
  (∀ (c : Config) (s t : State) (tr : List Event), Run c s tr t →
    t.seed = lcgNext^[tr.countP Event.isRng] s.seed ∧
    ∀ pre e post, tr = pre ++ e :: post → e.before.seed = lcgNext^[pre.countP Event.isRng] s.seed) ∧
  (∀ (a : Reg) (s : State), ∃ t, exec (.rng a) s = .next t ∧ t.seed = lcgNext s.seed ∧
    readReg config t a = lcgOutput (lcgNext s.seed)) ∧
  (List.range 7).map (fun k => lcgNext^[k] 0x01234567#32) =
    [0x01234567#32, 0x0FD41F14#32, 0x7C4183BD#32, 0x3F36DDB2#32, 0x4B94D103#32, 0x715E1880#32, 0x63879EB9#32] ∧
  (List.range 6).map (fun k => lcgOutput (lcgNext^[k + 1] 0x01234567#32)) =
    [3978#32, 16862#32, 28377#32, 26753#32, 3136#32, 20316#32]

/-- R161: along any run the console is what it was with one line appended for each `inspect` executed, in order; and the
block never reads it: on another console every instruction does the same and appends the same bytes. -/
def Obligations.ConsoleIsTheLinesOfTheInspectsExecuted : Prop :=
  (∀ (c : Config) (s t : State) (tr : List Event), Run c s tr t →
    t.console = s.console ++ tr.flatMap (Event.line c)) ∧
  (∀ (i : Instr) (s : State) (bytes : List Byte), ∃ t line, exec i s = .next t ∧ t.console = s.console ++ line ∧
    exec i (s.withConsole bytes) = .next (t.withConsole (bytes ++ line)))

/-- No run changes the program (20_memory.md, section 7, fetch coherence; 70_reset_and_hazards.md, section 3). -/
def Obligations.NoRunChangesTheProgram : Prop :=
  ∀ (c : Config) (s t : State) (tr : List Event), Run c s tr t → SameProgram s t

/-- The machine answers a next state exactly where its status records no fault: a decode failure or a fetch outside the
program is first a next state that records it, and only then is the fault the answer (30_encoding.md, section 6; log
entry 11). That a halted machine answers a next state, its own, is the model's deduction (log entry 12). -/
def Obligations.MachineStepsUnlessFaulted : Prop :=
  ∀ (c : Config) (s : State), (∃ t, stepWith c s = .next t) ↔ ∀ w p, s.status ≠ .fault w p

/-- A Fault is left only by reset, and nothing else of a faulted machine changes before it (60_exceptions.md, section 3;
10_state.md, section 6; decision D6; that a load has no effect at all there is deduced, log entry 21): no step goes on, and
no load, register write or console clearing has an effect; `rst` makes the machine Running. -/
def Obligations.FaultIsLeftOnlyByReset : Prop :=
  ∀ (c : Config) (s : State), s.faulted = true →
    (∀ t, stepWith c s ≠ .next t) ∧ (∀ p, load c p s = s) ∧ (∀ base image, loadBytes c base image s = s) ∧
    (∀ r v, hostWrite c r v s = s) ∧ clearConsole s = s ∧ (assertRst c s).status = .running
end

