-- ==== Sys2Proof/Laws/Alu.lean ====
section
/-!
SUPPORT. The arithmetic of the routines as bit-vector and natural-number arithmetic (00_scope.md R9, R11; 44_rng.md R151).
-/

namespace Sys2Proof.Machine

theorem word_natCast_toNat (n : Nat) : (word (n : Int)).toNat = n % 2 ^ 32 := by
  simp only [word, BitVec.ofInt_natCast, BitVec.toNat_ofNat]

theorem add_eq (a b : Word) : Machine.add a b = a + b := by
  apply BitVec.eq_of_toNat_eq
  rw [Machine.add, ← Nat.cast_add, word_natCast_toNat, BitVec.toNat_add]

theorem sub_eq (a b : Word) : Machine.sub a b = a - b := by
  apply BitVec.eq_of_toInt_eq
  rw [Machine.sub, word, BitVec.toInt_ofInt, BitVec.toInt_sub, BitVec.toInt_eq_toNat_bmod a,
    BitVec.toInt_eq_toNat_bmod b, Int.sub_bmod_bmod, Int.bmod_sub_bmod]

/-- The new seed as a number. Its multiplication is never to be evaluated on a variable: cite this instead. -/
theorem lcgNext_toNat (s : Word) : (lcgNext s).toNat = (1103515245 * s.toNat + 12345) % 2 ^ 31 := by
  unfold lcgNext
  generalize 1103515245 * unsigned s + 12345 = n
  rw [word_natCast_toNat]
  exact Nat.mod_eq_of_lt (by omega)

end Sys2Proof.Machine
end

