-- ==== Sys2Proof/Laws/Decode.lean ====
section
/-!
SUPPORT. The fields of an assembled word (30_encoding.md R61 to R63) and the words of bytes (20_memory.md R43).
-/

namespace Sys2Proof

theorem opcodeOf_packR (rs rd : Reg) (fn : BitVec 6) : opcodeOf (packR rs rd fn) = 0#6 := by
  apply BitVec.eq_of_getLsbD_eq
  intro k hk
  simp only [opcodeOf, packR, BitVec.getLsbD_extractLsb', BitVec.getLsbD_append]
  interval_cases k <;> simp

theorem functOf_packR (rs rd : Reg) (fn : BitVec 6) : functOf (packR rs rd fn) = fn := by
  apply BitVec.eq_of_getLsbD_eq
  intro k hk
  simp only [functOf, packR, BitVec.getLsbD_extractLsb', BitVec.getLsbD_append]
  interval_cases k <;> simp

theorem rsOf_packR (rs rd : Reg) (fn : BitVec 6) : rsOf (packR rs rd fn) = rs := by
  apply BitVec.eq_of_getLsbD_eq
  intro k hk
  simp only [rsOf, packR, BitVec.getLsbD_extractLsb', BitVec.getLsbD_append]
  interval_cases k <;> simp

theorem rtOf_packR (rs rd : Reg) (fn : BitVec 6) : rtOf (packR rs rd fn) = 0#5 := by
  apply BitVec.eq_of_getLsbD_eq
  intro k hk
  simp only [rtOf, packR, BitVec.getLsbD_extractLsb', BitVec.getLsbD_append]
  interval_cases k <;> simp

theorem rdOf_packR (rs rd : Reg) (fn : BitVec 6) : rdOf (packR rs rd fn) = rd := by
  apply BitVec.eq_of_getLsbD_eq
  intro k hk
  simp only [rdOf, packR, BitVec.getLsbD_extractLsb', BitVec.getLsbD_append]
  interval_cases k <;> simp

theorem unusedOf_packR (rs rd : Reg) (fn : BitVec 6) : unusedOf (packR rs rd fn) = 0#5 := by
  apply BitVec.eq_of_getLsbD_eq
  intro k hk
  simp only [unusedOf, packR, BitVec.getLsbD_extractLsb', BitVec.getLsbD_append]
  interval_cases k <;> simp

theorem opcodeOf_packI (op : BitVec 6) (rs rt : Reg) (imm : Half) : opcodeOf (packI op rs rt imm) = op := by
  apply BitVec.eq_of_getLsbD_eq
  intro k hk
  simp only [opcodeOf, packI, BitVec.getLsbD_extractLsb', BitVec.getLsbD_append]
  interval_cases k <;> simp

theorem rsOf_packI (op : BitVec 6) (rs rt : Reg) (imm : Half) : rsOf (packI op rs rt imm) = rs := by
  apply BitVec.eq_of_getLsbD_eq
  intro k hk
  simp only [rsOf, packI, BitVec.getLsbD_extractLsb', BitVec.getLsbD_append]
  interval_cases k <;> simp

theorem rtOf_packI (op : BitVec 6) (rs rt : Reg) (imm : Half) : rtOf (packI op rs rt imm) = rt := by
  apply BitVec.eq_of_getLsbD_eq
  intro k hk
  simp only [rtOf, packI, BitVec.getLsbD_extractLsb', BitVec.getLsbD_append]
  interval_cases k <;> simp

theorem immOf_packI (op : BitVec 6) (rs rt : Reg) (imm : Half) : immOf (packI op rs rt imm) = imm := by
  apply BitVec.eq_of_getLsbD_eq
  intro k hk
  simp only [immOf, packI, BitVec.getLsbD_extractLsb', BitVec.getLsbD_append]
  interval_cases k <;> simp

/-- The opcode of an I_FORMAT word, whichever field holds its operand. -/
theorem opcodeOf_packTarget (c : Config) (op : BitVec 6) (a : Reg) (imm : Half) :
    opcodeOf (packTarget c op a imm) = op := by
  unfold packTarget
  split <;> exact opcodeOf_packI _ _ _ _

theorem immOf_packTarget (c : Config) (op : BitVec 6) (a : Reg) (imm : Half) :
    immOf (packTarget c op a imm) = imm := by
  unfold packTarget
  split <;> exact immOf_packI _ _ _ _

/-- The target field of an I_FORMAT word is its operand. -/
theorem iTarget_packTarget (c : Config) (op : BitVec 6) (a : Reg) (imm : Half) :
    iTarget c (packTarget c op a imm) = a := by
  unfold iTarget packTarget
  split
  · exact rtOf_packI _ _ _ _
  · exact rsOf_packI _ _ _ _

/-- The word of the bytes of a word, in either order. -/
theorem wordOfBytes_bytesOfWord (o : ByteOrder) (w : Word) :
    wordOfBytes o (byteOfWord o w 0) (byteOfWord o w 1) (byteOfWord o w 2) (byteOfWord o w 3) = w := by
  apply BitVec.eq_of_getLsbD_eq
  intro k hk
  cases o <;> simp only [wordOfBytes, byteOfWord, BitVec.getLsbD_extractLsb', BitVec.getLsbD_append] <;>
    interval_cases k <;> simp

end Sys2Proof
end

