-- ==== Sys2Proof/Laws/Memory.lean ====
section
/-!
SUPPORT. The laws of program memory: a read after a write, and that every write keeps the canonical form
(20_memory.md R41, log entry 1).
-/

namespace Sys2Proof.Machine

namespace Memory

theorem wfFrom_mono {m : List Host.Cell} {lo hi : Nat} (h : wfFrom hi m = true) (hl : lo ≤ hi) :
    wfFrom lo m = true := by
  cases m with
  | nil => rfl
  | cons x m =>
    simp only [wfFrom, Bool.and_eq_true, decide_eq_true_eq] at h ⊢
    exact ⟨⟨hl.trans h.1.1, h.1.2⟩, h.2⟩

/-- Below the lowest listed address every byte is what an unlisted address reads as. -/
theorem readByte_below {m : List Host.Cell} {lo a : Nat} (h : wfFrom lo m = true) (ha : a < lo) :
    readByte m a = unlisted := by
  induction m generalizing lo with
  | nil => rfl
  | cons x m ih =>
    simp only [wfFrom, Bool.and_eq_true, decide_eq_true_eq] at h
    have hx : x.1 ≠ a := by omega
    simp only [readByte, if_neg hx]
    exact ih h.2 (by omega)

theorem putFront_wf {m : List Host.Cell} {lo a : Nat} {b : Byte} (h : wfFrom (a + 1) m = true) (ha : lo ≤ a) :
    wfFrom lo (putFront a b m) = true := by
  unfold putFront
  split
  · exact wfFrom_mono h (by omega)
  · simp_all [wfFrom]

/-- A write keeps the canonical form. -/
theorem writeByte_wfFrom {m : List Host.Cell} {lo a : Nat} {b : Byte} (h : wfFrom lo m = true) (ha : lo ≤ a) :
    wfFrom lo (writeByte m a b) = true := by
  induction m generalizing lo with
  | nil => exact putFront_wf rfl ha
  | cons x m ih =>
    simp only [wfFrom, Bool.and_eq_true, decide_eq_true_eq] at h
    simp only [writeByte]
    split
    · rename_i hax
      refine putFront_wf ?_ ha
      simp only [wfFrom, Bool.and_eq_true, decide_eq_true_eq]
      exact ⟨⟨by omega, h.1.2⟩, h.2⟩
    · split
      · rename_i hax
        exact putFront_wf (hax ▸ h.2) ha
      · simp only [wfFrom, Bool.and_eq_true, decide_eq_true_eq]
        exact ⟨h.1, ih h.2 (by omega)⟩

theorem writeByte_wf {m : List Host.Cell} (a : Nat) (b : Byte) (h : wf m = true) : wf (writeByte m a b) = true :=
  writeByte_wfFrom h (Nat.zero_le a)

theorem writeWord_wf {m : List Host.Cell} (o : ByteOrder) (a : Nat) (w : Word) (h : wf m = true) :
    wf (writeWord o m a w) = true :=
  writeByte_wf _ _ (writeByte_wf _ _ (writeByte_wf _ _ (writeByte_wf _ _ h)))

theorem writeWords_wf {m : List Host.Cell} (o : ByteOrder) (a : Nat) (ws : List Word) (h : wf m = true) :
    wf (writeWords o m a ws) = true := by
  induction ws generalizing m a with
  | nil => exact h
  | cons w ws ih => exact ih (a + 4) (writeWord_wf o a w h)

theorem readByte_putFront {m : List Host.Cell} {a : Nat} {b : Byte} (h : wfFrom (a + 1) m = true) (x : Nat) :
    readByte (putFront a b m) x = if x = a then b else readByte m x := by
  unfold putFront
  by_cases hb : b = unlisted
  · by_cases hx : x = a
    · simp [hb, hx, readByte_below h (Nat.lt_succ_self a)]
    · simp [hb, hx]
  · by_cases hx : x = a
    · simp [hb, readByte, hx]
    · have : a ≠ x := fun e => hx e.symm
      simp [hb, readByte, hx, this]

/-- A read after a write: the byte written at its own address, the old byte at every other. -/
theorem readByte_writeByte {m : List Host.Cell} {lo : Nat} (h : wfFrom lo m = true) (a : Nat) (b : Byte) (x : Nat) :
    readByte (writeByte m a b) x = if x = a then b else readByte m x := by
  induction m generalizing lo with
  | nil => exact readByte_putFront rfl x
  | cons y m ih =>
    simp only [wfFrom, Bool.and_eq_true, decide_eq_true_eq] at h
    simp only [writeByte]
    split
    · rename_i hay
      refine readByte_putFront ?_ x
      simp only [wfFrom, Bool.and_eq_true, decide_eq_true_eq]
      exact ⟨⟨by omega, h.1.2⟩, h.2⟩
    · split
      · rename_i hay
        rw [readByte_putFront (hay ▸ h.2), readByte]
        split
        · rfl
        · rw [if_neg (by omega)]
      · rename_i hay
        simp only [readByte, ih h.2]
        split
        · rw [if_neg (by omega)]
        · rfl

end Memory

end Sys2Proof.Machine
end

