-- ==== Sys2Proof/Laws/State.lean ====
section
/-!
SUPPORT. One lemma for each field under each setter, true by unfolding, so that no later proof unfolds a record update.
-/

namespace Sys2Proof.Machine

@[simp] theorem State.withRegs_regs (s : State) (x : Vector Word 32) : (s.withRegs x).regs = x := rfl
@[simp] theorem State.withRegs_seed (s : State) (x : Vector Word 32) : (s.withRegs x).seed = s.seed := rfl
@[simp] theorem State.withRegs_pc (s : State) (x : Vector Word 32) : (s.withRegs x).pc = s.pc := rfl
@[simp] theorem State.withRegs_console (s : State) (x : Vector Word 32) : (s.withRegs x).console = s.console := rfl
@[simp] theorem State.withRegs_status (s : State) (x : Vector Word 32) : (s.withRegs x).status = s.status := rfl
@[simp] theorem State.withRegs_progBase (s : State) (x : Vector Word 32) : (s.withRegs x).progBase = s.progBase := rfl
@[simp] theorem State.withRegs_progLen (s : State) (x : Vector Word 32) : (s.withRegs x).progLen = s.progLen := rfl
@[simp] theorem State.withRegs_imem (s : State) (x : Vector Word 32) : (s.withRegs x).imem = s.imem := rfl

@[simp] theorem State.withSeed_regs (s : State) (x : Word) : (s.withSeed x).regs = s.regs := rfl
@[simp] theorem State.withSeed_seed (s : State) (x : Word) : (s.withSeed x).seed = x := rfl
@[simp] theorem State.withSeed_pc (s : State) (x : Word) : (s.withSeed x).pc = s.pc := rfl
@[simp] theorem State.withSeed_console (s : State) (x : Word) : (s.withSeed x).console = s.console := rfl
@[simp] theorem State.withSeed_status (s : State) (x : Word) : (s.withSeed x).status = s.status := rfl
@[simp] theorem State.withSeed_progBase (s : State) (x : Word) : (s.withSeed x).progBase = s.progBase := rfl
@[simp] theorem State.withSeed_progLen (s : State) (x : Word) : (s.withSeed x).progLen = s.progLen := rfl
@[simp] theorem State.withSeed_imem (s : State) (x : Word) : (s.withSeed x).imem = s.imem := rfl

@[simp] theorem State.withPc_regs (s : State) (x : Word) : (s.withPc x).regs = s.regs := rfl
@[simp] theorem State.withPc_seed (s : State) (x : Word) : (s.withPc x).seed = s.seed := rfl
@[simp] theorem State.withPc_pc (s : State) (x : Word) : (s.withPc x).pc = x := rfl
@[simp] theorem State.withPc_console (s : State) (x : Word) : (s.withPc x).console = s.console := rfl
@[simp] theorem State.withPc_status (s : State) (x : Word) : (s.withPc x).status = s.status := rfl
@[simp] theorem State.withPc_progBase (s : State) (x : Word) : (s.withPc x).progBase = s.progBase := rfl
@[simp] theorem State.withPc_progLen (s : State) (x : Word) : (s.withPc x).progLen = s.progLen := rfl
@[simp] theorem State.withPc_imem (s : State) (x : Word) : (s.withPc x).imem = s.imem := rfl

@[simp] theorem State.withConsole_regs (s : State) (x : List Byte) : (s.withConsole x).regs = s.regs := rfl
@[simp] theorem State.withConsole_seed (s : State) (x : List Byte) : (s.withConsole x).seed = s.seed := rfl
@[simp] theorem State.withConsole_pc (s : State) (x : List Byte) : (s.withConsole x).pc = s.pc := rfl
@[simp] theorem State.withConsole_console (s : State) (x : List Byte) : (s.withConsole x).console = x := rfl
@[simp] theorem State.withConsole_status (s : State) (x : List Byte) : (s.withConsole x).status = s.status := rfl
@[simp] theorem State.withConsole_progBase (s : State) (x : List Byte) : (s.withConsole x).progBase = s.progBase := rfl
@[simp] theorem State.withConsole_progLen (s : State) (x : List Byte) : (s.withConsole x).progLen = s.progLen := rfl
@[simp] theorem State.withConsole_imem (s : State) (x : List Byte) : (s.withConsole x).imem = s.imem := rfl

@[simp] theorem State.withStatus_regs (s : State) (x : Status) : (s.withStatus x).regs = s.regs := rfl
@[simp] theorem State.withStatus_seed (s : State) (x : Status) : (s.withStatus x).seed = s.seed := rfl
@[simp] theorem State.withStatus_pc (s : State) (x : Status) : (s.withStatus x).pc = s.pc := rfl
@[simp] theorem State.withStatus_console (s : State) (x : Status) : (s.withStatus x).console = s.console := rfl
@[simp] theorem State.withStatus_status (s : State) (x : Status) : (s.withStatus x).status = x := rfl
@[simp] theorem State.withStatus_progBase (s : State) (x : Status) : (s.withStatus x).progBase = s.progBase := rfl
@[simp] theorem State.withStatus_progLen (s : State) (x : Status) : (s.withStatus x).progLen = s.progLen := rfl
@[simp] theorem State.withStatus_imem (s : State) (x : Status) : (s.withStatus x).imem = s.imem := rfl

@[simp] theorem State.withProgram_regs (s : State) (base : Word) (len : Nat) (m : List Host.Cell) : (s.withProgram base len m).regs = s.regs := rfl
@[simp] theorem State.withProgram_seed (s : State) (base : Word) (len : Nat) (m : List Host.Cell) : (s.withProgram base len m).seed = s.seed := rfl
@[simp] theorem State.withProgram_pc (s : State) (base : Word) (len : Nat) (m : List Host.Cell) : (s.withProgram base len m).pc = s.pc := rfl
@[simp] theorem State.withProgram_console (s : State) (base : Word) (len : Nat) (m : List Host.Cell) : (s.withProgram base len m).console = s.console := rfl
@[simp] theorem State.withProgram_status (s : State) (base : Word) (len : Nat) (m : List Host.Cell) : (s.withProgram base len m).status = s.status := rfl
@[simp] theorem State.withProgram_progBase (s : State) (base : Word) (len : Nat) (m : List Host.Cell) : (s.withProgram base len m).progBase = base := rfl
@[simp] theorem State.withProgram_progLen (s : State) (base : Word) (len : Nat) (m : List Host.Cell) : (s.withProgram base len m).progLen = len := rfl
@[simp] theorem State.withProgram_imem (s : State) (base : Word) (len : Nat) (m : List Host.Cell) : (s.withProgram base len m).imem = m := rfl

end Sys2Proof.Machine
end

