-- ==== Sys2Proof/Laws/Ops.lean ====
section
/-!
SUPPORT. What each shared operation does, said once: the register port, the program counter, the console, the ends of a
run, fetch and the placing of words.
-/

namespace Sys2Proof.Machine

/-! ## Registers -/

/-- A register read depends on the register file alone. -/
theorem readReg_congr (c : Config) {s t : State} (h : t.regs = s.regs) (r : Reg) : readReg c t r = readReg c s r := by
  unfold readReg
  simp only [h]

@[simp] theorem readReg_withSeed (c : Config) (s : State) (x : Word) (r : Reg) :
    readReg c (s.withSeed x) r = readReg c s r := rfl
@[simp] theorem readReg_withPc (c : Config) (s : State) (x : Word) (r : Reg) :
    readReg c (s.withPc x) r = readReg c s r := rfl
@[simp] theorem readReg_withConsole (c : Config) (s : State) (x : List Byte) (r : Reg) :
    readReg c (s.withConsole x) r = readReg c s r := rfl
@[simp] theorem readReg_withStatus (c : Config) (s : State) (x : Status) (r : Reg) :
    readReg c (s.withStatus x) r = readReg c s r := rfl
@[simp] theorem readReg_withProgram (c : Config) (s : State) (b : Word) (n : Nat) (m : List Host.Cell) (r : Reg) :
    readReg c (s.withProgram b n m) r = readReg c s r := rfl

/-- A write changes the register file alone. -/
theorem writeReg_eq (c : Config) (r : Reg) (v : Word) (s : State) :
    writeReg c r v s = s.withRegs (writeReg c r v s).regs := by
  unfold writeReg
  split <;> rfl

@[simp] theorem writeReg_seed (c : Config) (r : Reg) (v : Word) (s : State) : (writeReg c r v s).seed = s.seed := by
  rw [writeReg_eq]; rfl
@[simp] theorem writeReg_pc (c : Config) (r : Reg) (v : Word) (s : State) : (writeReg c r v s).pc = s.pc := by
  rw [writeReg_eq]; rfl
@[simp] theorem writeReg_console (c : Config) (r : Reg) (v : Word) (s : State) :
    (writeReg c r v s).console = s.console := by
  rw [writeReg_eq]; rfl
@[simp] theorem writeReg_status (c : Config) (r : Reg) (v : Word) (s : State) :
    (writeReg c r v s).status = s.status := by
  rw [writeReg_eq]; rfl
@[simp] theorem writeReg_progBase (c : Config) (r : Reg) (v : Word) (s : State) :
    (writeReg c r v s).progBase = s.progBase := by
  rw [writeReg_eq]; rfl
@[simp] theorem writeReg_progLen (c : Config) (r : Reg) (v : Word) (s : State) :
    (writeReg c r v s).progLen = s.progLen := by
  rw [writeReg_eq]; rfl
@[simp] theorem writeReg_imem (c : Config) (r : Reg) (v : Word) (s : State) : (writeReg c r v s).imem = s.imem := by
  rw [writeReg_eq]; rfl

/-- A read after a write: the value written at its own register, but for a register 0 that is hardwired, and the old
value at every other. -/
theorem readReg_writeReg (c : Config) (r q : Reg) (v : Word) (s : State) :
    readReg c (writeReg c r v s) q =
      if q = r ∧ ¬(c.reg0HardwiredZero = true ∧ r = 0#5) then v else readReg c s q := by
  unfold readReg writeReg
  by_cases hz : c.reg0HardwiredZero = true ∧ r = 0#5
  · simp [hz]
  · by_cases hq : q = r
    · subst hq
      simp [hz, State.withRegs]
    · have hn : r.toNat ≠ q.toNat := fun h => hq (BitVec.eq_of_toNat_eq h.symm)
      simp [hz, hq, State.withRegs, Vector.getElem_set_ne, hn]

/-- A write of another register leaves a register as it was. -/
theorem readReg_writeReg_ne (c : Config) {r q : Reg} (h : q ≠ r) (v : Word) (s : State) :
    readReg c (writeReg c r v s) q = readReg c s q := by
  rw [readReg_writeReg, if_neg (fun e => h e.1)]

/-- On the running machine no register is hardwired (R21). -/
theorem readReg_writeReg_self (r : Reg) (v : Word) (s : State) : readReg config (writeReg config r v s) r = v := by
  rw [readReg_writeReg, if_pos ⟨rfl, fun e => Bool.noConfusion e.1⟩]

/-! ## Program counter, console, status: each changes its one field -/

@[simp] theorem readReg_advance (c : Config) (s : State) (r : Reg) : readReg c (advance s) r = readReg c s r := rfl
@[simp] theorem advance_pc (s : State) : (advance s).pc = s.pc + 4#32 := rfl
@[simp] theorem advance_regs (s : State) : (advance s).regs = s.regs := rfl
@[simp] theorem advance_seed (s : State) : (advance s).seed = s.seed := rfl
@[simp] theorem advance_console (s : State) : (advance s).console = s.console := rfl
@[simp] theorem advance_status (s : State) : (advance s).status = s.status := rfl
@[simp] theorem advance_progBase (s : State) : (advance s).progBase = s.progBase := rfl
@[simp] theorem advance_progLen (s : State) : (advance s).progLen = s.progLen := rfl
@[simp] theorem advance_imem (s : State) : (advance s).imem = s.imem := rfl

@[simp] theorem readReg_jump (c d : Config) (o : Half) (s : State) (r : Reg) :
    readReg c (jump d o s) r = readReg c s r := rfl
@[simp] theorem jump_pc (c : Config) (o : Half) (s : State) : (jump c o s).pc = c.resolve s.pc o := rfl
@[simp] theorem jump_regs (c : Config) (o : Half) (s : State) : (jump c o s).regs = s.regs := rfl
@[simp] theorem jump_seed (c : Config) (o : Half) (s : State) : (jump c o s).seed = s.seed := rfl
@[simp] theorem jump_console (c : Config) (o : Half) (s : State) : (jump c o s).console = s.console := rfl
@[simp] theorem jump_status (c : Config) (o : Half) (s : State) : (jump c o s).status = s.status := rfl
@[simp] theorem jump_progBase (c : Config) (o : Half) (s : State) : (jump c o s).progBase = s.progBase := rfl
@[simp] theorem jump_progLen (c : Config) (o : Half) (s : State) : (jump c o s).progLen = s.progLen := rfl
@[simp] theorem jump_imem (c : Config) (o : Half) (s : State) : (jump c o s).imem = s.imem := rfl

/-- Appending to the console is setting the console. -/
theorem appendConsole_eq (bs : List Byte) (s : State) : appendConsole bs s = s.withConsole (s.console ++ bs) := rfl

/-- Taking `DecodeFail` sets the status and nothing else (R171). -/
theorem raiseDecodeFail_eq (w : Word) (s : State) : raiseDecodeFail w s = s.withStatus (.fault (some w) s.pc) := rfl

/-- A fetch fault sets the status and nothing else (R199 b). -/
theorem raiseFetchFault_eq (s : State) : raiseFetchFault s = s.withStatus (.fault none s.pc) := rfl

/-- The normal end sets the status and nothing else (R199 a). -/
theorem haltRun_eq (s : State) : haltRun s = s.withStatus .halted := rfl

/-! ## The host's operations -/

/-- The status of a faulted machine is a fault. -/
theorem State.faulted_iff (s : State) : s.faulted = true ↔ ∃ w p, s.status = .fault w p := by
  unfold State.faulted
  split <;> simp_all

/-- On a faulted machine a host operation has no effect. -/
theorem unlessFaulted_faulted {s : State} (f : State → State) (h : s.faulted = true) : unlessFaulted f s = s := by
  unfold unlessFaulted
  rw [h, cond_true]

/-- On any other machine it is the operation. -/
theorem unlessFaulted_eq {s : State} (f : State → State) (h : s.faulted = false) : unlessFaulted f s = f s := by
  unfold unlessFaulted
  rw [h, cond_false]

/-- Starting a machine that is not faulted sets program, pc and status, and nothing else (R191). -/
theorem startAt_eq {s : State} (a base : Word) (len : Nat) (m : List Host.Cell) (h : s.faulted = false) :
    startAt a base len m s = ((s.withProgram base len m).withPc a).withStatus .running :=
  unlessFaulted_eq _ h

/-- A load of a machine that is not faulted (R191). -/
theorem load_eq (c : Config) (p : Program) {s : State} (h : s.faulted = false) :
    load c p s = ((s.withProgram p.base p.words.length
      (Memory.writeWords c.imemByteOrder [] p.base.toNat p.words)).withPc p.base).withStatus .running :=
  startAt_eq _ _ _ _ h

/-- A load of a faulted machine has no effect (R33, R177). -/
theorem load_faulted (c : Config) (p : Program) {s : State} (h : s.faulted = true) : load c p s = s := by
  unfold load startAt
  exact unlessFaulted_faulted _ h

/-- The host's write of a machine that is not faulted is a register write (R26). -/
theorem hostWrite_eq (c : Config) (r : Reg) (v : Word) {s : State} (h : s.faulted = false) :
    hostWrite c r v s = writeReg c r v s :=
  unlessFaulted_eq _ h

/-- After `rst` no fault is recorded (R177, R190). -/
@[simp] theorem assertRst_faulted (c : Config) (s : State) : (assertRst c s).faulted = false := rfl

/-- `leaveFault` is `rst` on a faulted machine and nothing on any other. -/
theorem leaveFault_eq (c : Config) (s : State) : leaveFault c s = if s.faulted = true then assertRst c s else s := by
  unfold leaveFault
  cases s.faulted <;> rfl

/-- `leaveFault` leaves every Fault. -/
@[simp] theorem leaveFault_faulted (c : Config) (s : State) : (leaveFault c s).faulted = false := by
  unfold leaveFault
  cases h : s.faulted
  · rw [cond_false, h]
  · rfl

/-- `leaveFault` keeps the program. -/
@[simp] theorem leaveFault_imem (c : Config) (s : State) : (leaveFault c s).imem = s.imem := by
  unfold leaveFault
  cases s.faulted <;> rfl

/-! ## Words in memory -/

/-- A byte after a word is written. -/
theorem Memory.readByte_writeWord {m : List Host.Cell} (h : Memory.wf m = true) (o : ByteOrder) (a : Nat) (w : Word)
    (x : Nat) :
    Memory.readByte (Memory.writeWord o m a w) x =
      if x = a + 3 then byteOfWord o w 3 else if x = a + 2 then byteOfWord o w 2
      else if x = a + 1 then byteOfWord o w 1 else if x = a then byteOfWord o w 0 else Memory.readByte m x := by
  have h1 := Memory.writeByte_wf a (byteOfWord o w 0) h
  have h2 := Memory.writeByte_wf (a + 1) (byteOfWord o w 1) h1
  have h3 := Memory.writeByte_wf (a + 2) (byteOfWord o w 2) h2
  unfold Memory.writeWord
  rw [Memory.readByte_writeByte h3, Memory.readByte_writeByte h2, Memory.readByte_writeByte h1,
    Memory.readByte_writeByte h]

/-- A word read where it was written. -/
theorem Memory.readWord_writeWord {m : List Host.Cell} (h : Memory.wf m = true) (o : ByteOrder) (a : Nat) (w : Word) :
    Memory.readWord o (Memory.writeWord o m a w) a = w := by
  simp only [Memory.readWord, Memory.readByte_writeWord h]
  simpa using wordOfBytes_bytesOfWord o w

/-- Writing a word leaves every byte outside it as it was. -/
theorem Memory.readByte_writeWord_outside {m : List Host.Cell} (h : Memory.wf m = true) (o : ByteOrder) (a : Nat)
    (w : Word) {x : Nat} (hx : x < a ∨ a + 3 < x) :
    Memory.readByte (Memory.writeWord o m a w) x = Memory.readByte m x := by
  rw [Memory.readByte_writeWord h, if_neg (by omega), if_neg (by omega), if_neg (by omega), if_neg (by omega)]

/-! ## Fetch -/

/-- A fetch depends on the pc and the loaded program alone. -/
theorem fetch_congr (c : Config) {s t : State} (hp : t.pc = s.pc) (hb : t.progBase = s.progBase)
    (hl : t.progLen = s.progLen) (hm : t.imem = s.imem) : fetch c t = fetch c s := by
  unfold fetch State.inProgram State.progEnd
  rw [hp, hb, hl, hm]

/-- The addresses of the program's words (R42). -/
theorem State.inProgram_iff (s : State) (a : Nat) :
    s.inProgram a = true ↔ s.progBase.toNat ≤ a ∧ a < s.progEnd ∧ a % 4 = 0 := by
  simp only [State.inProgram, Bool.and_eq_true, decide_eq_true_eq, beq_iff_eq, and_assoc]

/-- What a fetch finds, case by case (R42, R77). -/
theorem fetch_cases (c : Config) (s : State) :
    (s.pc.toNat = s.progEnd ∧ fetch c s = .endOfProgram) ∨
    (s.pc.toNat ≠ s.progEnd ∧ s.inProgram s.pc.toNat = true ∧
      fetch c s = .word (Memory.readWord c.imemByteOrder s.imem s.pc.toNat)) ∨
    (s.pc.toNat ≠ s.progEnd ∧ s.inProgram s.pc.toNat = false ∧ fetch c s = .outside) := by
  unfold fetch
  by_cases he : s.pc.toNat = s.progEnd
  · exact .inl ⟨he, if_pos he⟩
  · rw [if_neg he]
    cases hi : s.inProgram s.pc.toNat
    · exact .inr (.inr ⟨he, rfl, rfl⟩)
    · exact .inr (.inl ⟨he, rfl, rfl⟩)

/-- The address a placed word is put at is a multiple of 4, and the pc itself where that is one. -/
theorem fetchAddress_toNat (s : State) : (fetchAddress s).toNat = s.pc.toNat - s.pc.toNat % 4 := by
  have e : fetchAddress s = (s.pc >>> 2) <<< 2 := by
    apply BitVec.eq_of_getLsbD_eq
    intro k hk
    simp only [fetchAddress, BitVec.getLsbD_and, BitVec.getLsbD_shiftLeft, BitVec.getLsbD_ushiftRight]
    interval_cases k <;> simp
  have := s.pc.isLt
  rw [e, BitVec.toNat_shiftLeft, BitVec.toNat_ushiftRight, Nat.shiftLeft_eq, Nat.shiftRight_eq_div_pow]
  omega

end Sys2Proof.Machine
end

