-- ==== Sys2Proof/Laws/Cycle.lean ====
section
/-!
SUPPORT. What a step can do, said once, and that the meaning of an instruction on the running machine is its routine.
-/

namespace Sys2Proof.Machine

/-- The meaning of an instruction is its execution routine at the running machine's parameters. -/
theorem exec_eq (i : Instr) (s : State) : exec i s = .next (runRoutine config i s) := by
  cases i <;> rfl

/-- Everything a step to a next state can be (R77, R175): a halted machine standing still, the normal end, a fetch
fault, a decode failure, or one instruction. -/
theorem cycle_next {c : Config} {run : Instr → State → Host.Outcome State Fault Refusal} {s t : State}
    (h : cycle c run s = .next t) :
    (s.status = .halted ∧ t = s) ∨
    (s.status = .running ∧ fetch c s = .endOfProgram ∧ t = haltRun s) ∨
    (s.status = .running ∧ fetch c s = .outside ∧ t = raiseFetchFault s) ∨
    (∃ w r, s.status = .running ∧ fetch c s = .word w ∧ decodeWith c w = .error r ∧ t = raiseDecodeFail w s) ∨
    (∃ w i, s.status = .running ∧ fetch c s = .word w ∧ decodeWith c w = .ok i ∧ run i s = .next t) := by
  unfold cycle at h
  split at h
  · rename_i hs
    exact .inl ⟨hs, (Host.Outcome.next.inj h).symm⟩
  · cases h
  · rename_i hs
    split at h
    · rename_i hf
      exact .inr (.inl ⟨hs, hf, (Host.Outcome.next.inj h).symm⟩)
    · rename_i hf
      exact .inr (.inr (.inl ⟨hs, hf, (Host.Outcome.next.inj h).symm⟩))
    · rename_i w hf
      unfold transact at h
      split at h
      · rename_i i hd
        exact .inr (.inr (.inr (.inr ⟨w, i, hs, hf, hd, h⟩)))
      · rename_i r hd
        exact .inr (.inr (.inr (.inl ⟨w, r, hs, hf, hd, (Host.Outcome.next.inj h).symm⟩)))

end Sys2Proof.Machine
end

