-- ==== Sys2Proof/Laws/PerInstr.lean ====
section
/-!
SUPPORT. The family EncodedKey, one lemma for each constructor: the key of an instruction's canonical word selects the
instruction's own descriptor (30_encoding.md R64, R81), whatever the parameters.
-/

namespace Sys2Proof.Laws.EncodedKey

/-- The opcode and funct of the canonical word select the instruction's descriptor. -/
def Statement (i : Instr) : Prop :=
  ∀ c : Config, keyMap (opcodeOf (encodeWith c i)) (functOf (encodeWith c i)) = .ok i.mnemonic

/-- An R_FORMAT word is selected by its funct. -/
theorem keyMap_packR (rs rd : Reg) (fn : BitVec 6) :
    keyMap (opcodeOf (packR rs rd fn)) (functOf (packR rs rd fn)) = functMap fn := by
  rw [opcodeOf_packR, functOf_packR]
  rfl

/-- An I_FORMAT word is selected by its opcode alone. -/
theorem keyMap_packTarget (c : Config) (op : BitVec 6) (a : Reg) (imm : Half) (m : Mnemonic)
    (h : ∀ fn, keyMap op fn = .ok m) :
    keyMap (opcodeOf (packTarget c op a imm)) (functOf (packTarget c op a imm)) = .ok m := by
  rw [opcodeOf_packTarget]
  exact h _

/-- So is a word whose register operand is rs in any case. -/
theorem keyMap_packI (op : BitVec 6) (rs rt : Reg) (imm : Half) (m : Mnemonic) (h : ∀ fn, keyMap op fn = .ok m) :
    keyMap (opcodeOf (packI op rs rt imm)) (functOf (packI op rs rt imm)) = .ok m := by
  rw [opcodeOf_packI]
  exact h _

theorem move (a : Reg) (b : Reg) : Statement (.move a b) := fun _ => keyMap_packR _ _ _

theorem heal (a : Reg) (imm : Half) : Statement (.heal a imm) := fun c =>
  keyMap_packTarget c _ _ _ _ fun _ => rfl

theorem settypep1 (a : Reg) (imm : Half) : Statement (.settypep1 a imm) := fun c =>
  keyMap_packTarget c _ _ _ _ fun _ => rfl

theorem settypep2 (a : Reg) (imm : Half) : Statement (.settypep2 a imm) := fun c =>
  keyMap_packTarget c _ _ _ _ fun _ => rfl

theorem buff (a : Reg) (imm : Half) : Statement (.buff a imm) := fun c =>
  keyMap_packTarget c _ _ _ _ fun _ => rfl

theorem debuff (a : Reg) (imm : Half) : Statement (.debuff a imm) := fun c =>
  keyMap_packTarget c _ _ _ _ fun _ => rfl

theorem inspect (a : Reg) : Statement (.inspect a) := fun _ => keyMap_packR _ _ _

theorem zerohp (a : Reg) : Statement (.zerohp a) := fun _ => keyMap_packR _ _ _

theorem setstatus (a : Reg) (imm : Half) : Statement (.setstatus a imm) := fun c =>
  keyMap_packTarget c _ _ _ _ fun _ => rfl

theorem resetstatus (a : Reg) (imm : Half) : Statement (.resetstatus a imm) := fun c =>
  keyMap_packTarget c _ _ _ _ fun _ => rfl

theorem temppower (a : Reg) (b : Reg) : Statement (.temppower a b) := fun _ => keyMap_packR _ _ _

theorem typeeff (a : Reg) (b : Reg) : Statement (.typeeff a b) := fun _ => keyMap_packR _ _ _

theorem crit (a : Reg) : Statement (.crit a) := fun _ => keyMap_packR _ _ _

theorem ball (a : Reg) (b : Reg) : Statement (.ball a b) := fun _ => keyMap_packR _ _ _

theorem catchBr (a : Reg) (off : Half) : Statement (.catchBr a off) := fun _ =>
  keyMap_packI _ _ _ _ _ fun _ => rfl

theorem rng (a : Reg) : Statement (.rng a) := fun c =>
  keyMap_packTarget c _ _ _ _ fun _ => rfl

theorem seti (a : Reg) (imm : Half) : Statement (.seti a imm) := fun _ =>
  keyMap_packI _ _ _ _ _ fun _ => rfl

/-- Every instruction. -/
theorem holds (i : Instr) : Statement i := by
  cases i with
  | move a b => exact EncodedKey.move a b
  | heal a imm => exact EncodedKey.heal a imm
  | settypep1 a imm => exact EncodedKey.settypep1 a imm
  | settypep2 a imm => exact EncodedKey.settypep2 a imm
  | buff a imm => exact EncodedKey.buff a imm
  | debuff a imm => exact EncodedKey.debuff a imm
  | inspect a => exact EncodedKey.inspect a
  | zerohp a => exact EncodedKey.zerohp a
  | setstatus a imm => exact EncodedKey.setstatus a imm
  | resetstatus a imm => exact EncodedKey.resetstatus a imm
  | temppower a b => exact EncodedKey.temppower a b
  | typeeff a b => exact EncodedKey.typeeff a b
  | crit a => exact EncodedKey.crit a
  | ball a b => exact EncodedKey.ball a b
  | catchBr a off => exact EncodedKey.catchBr a off
  | rng a => exact EncodedKey.rng a
  | seti a imm => exact EncodedKey.seti a imm

end Sys2Proof.Laws.EncodedKey
end

