-- ==== Sys2Proof/Tests/Slice0.lean ====
section
/-!
SUPPORT. Tests. Words are written out field by field from the layouts of 30_encoding.md; expected results are the examples
of the rules and the vectors of 95_test_vectors.md, whose number each test names. Then one witness for the hypotheses of
each statement that has any.
-/

namespace Sys2Proof.Tests

open Sys2Proof.Machine

/-! ## Well-formedness refuses -/

theorem test_programWf_accepts : Program.wf ⟨0x00400000#32, [0#32, 0#32]⟩ = true := by decide
theorem test_programWf_refuses_misaligned : Program.wf ⟨0x00400002#32, [0#32]⟩ = false := by decide
theorem test_programWf_refuses_wrapping : Program.wf ⟨0xFFFFFFFC#32, [0#32]⟩ = false := by decide
theorem test_catalogWf_accepts : catalogWf catalog = true := by decide
theorem test_catalogWf_refuses_collision :
    catalogWf [⟨1, .move, "move rd, rs", .rFormat, 0#6, some 1#6⟩, ⟨7, .inspect, "inspect rs", .rFormat, 0#6, some 1#6⟩] =
      false := by decide
theorem test_catalogWf_refuses_opcode_shared_without_funct :
    catalogWf [⟨1, .move, "move rd, rs", .rFormat, 0#6, some 1#6⟩, ⟨2, .heal, "heal rd, imm", .iFormat, 0#6, none⟩] =
      false := by decide
theorem test_memoryWf_refuses_unsorted : Memory.wf [(4, 1#8), (3, 1#8)] = false := by decide
theorem test_memoryWf_refuses_repeated : Memory.wf [(4, 1#8), (4, 2#8)] = false := by decide
theorem test_memoryWf_refuses_unlisted_value : Memory.wf [(4, 0#8)] = false := by decide
theorem test_memory_write_of_unlisted_value_removes :
    Memory.writeByte [(3, 1#8), (4, 2#8), (9, 3#8)] 4 0#8 = [(3, 1#8), (9, 3#8)] := by decide

/-! ## Decode: one word for each constructor, from the layouts of R61 to R63 and the keys of R71, R72 -/

theorem test_decode_move :
    decode (0b000000#6 ++ 0b01010#5 ++ 0b00000#5 ++ 0b01000#5 ++ 0b00000#5 ++ 0b000001#6) = .ok (.move 8#5 10#5) := by decide
theorem test_decode_inspect :
    decode (0b000000#6 ++ 0b11001#5 ++ 0b00000#5 ++ 0b00000#5 ++ 0b00000#5 ++ 0b000010#6) = .ok (.inspect 25#5) := by decide
theorem test_decode_zerohp :
    decode (0b000000#6 ++ 0b00000#5 ++ 0b00000#5 ++ 0b01000#5 ++ 0b00000#5 ++ 0b000011#6) = .ok (.zerohp 8#5) := by decide
theorem test_decode_temppower :
    decode (0b000000#6 ++ 0b01000#5 ++ 0b00000#5 ++ 0b01010#5 ++ 0b00000#5 ++ 0b000100#6) = .ok (.temppower 10#5 8#5) := by
  decide
theorem test_decode_typeeff :
    decode (0b000000#6 ++ 0b01111#5 ++ 0b00000#5 ++ 0b01010#5 ++ 0b00000#5 ++ 0b000101#6) = .ok (.typeeff 10#5 15#5) := by
  decide
theorem test_decode_crit :
    decode (0b000000#6 ++ 0b00000#5 ++ 0b00000#5 ++ 0b01010#5 ++ 0b00000#5 ++ 0b000110#6) = .ok (.crit 10#5) := by decide
theorem test_decode_ball :
    decode (0b000000#6 ++ 0b01100#5 ++ 0b00000#5 ++ 0b01011#5 ++ 0b00000#5 ++ 0b000111#6) = .ok (.ball 11#5 12#5) := by decide
theorem test_decode_catch :
    decode (0b000100#6 ++ 0b01011#5 ++ 0b00000#5 ++ 0x0002#16) = .ok (.catchBr 11#5 2#16) := by decide
theorem test_decode_heal : decode (0b001000#6 ++ 0b00000#5 ++ 0b01000#5 ++ 0x0005#16) = .ok (.heal 8#5 5#16) := by decide
theorem test_decode_settypep1 :
    decode (0b001001#6 ++ 0b00000#5 ++ 0b11111#5 ++ 0x0001#16) = .ok (.settypep1 31#5 1#16) := by decide
theorem test_decode_buff :
    decode (0b001010#6 ++ 0b00000#5 ++ 0b01000#5 ++ 0xFFFF#16) = .ok (.buff 8#5 0xFFFF#16) := by decide
theorem test_decode_debuff : decode (0b001011#6 ++ 0b00000#5 ++ 0b01000#5 ++ 0x0005#16) = .ok (.debuff 8#5 5#16) := by decide
theorem test_decode_setstatus :
    decode (0b001100#6 ++ 0b00000#5 ++ 0b10001#5 ++ 0x8001#16) = .ok (.setstatus 17#5 0x8001#16) := by decide
theorem test_decode_resetstatus :
    decode (0b001101#6 ++ 0b00000#5 ++ 0b10001#5 ++ 0x0001#16) = .ok (.resetstatus 17#5 1#16) := by decide
theorem test_decode_rng : decode (0b001110#6 ++ 0b11111#5 ++ 0b01000#5 ++ 0xFFFF#16) = .ok (.rng 8#5) := by decide
theorem test_decode_seti : decode (0b001111#6 ++ 0b01000#5 ++ 0b11111#5 ++ 0x0064#16) = .ok (.seti 8#5 0x64#16) := by decide
theorem test_decode_settypep2 :
    decode (0b101001#6 ++ 0b00000#5 ++ 0b10001#5 ++ 0x0004#16) = .ok (.settypep2 17#5 4#16) := by decide

/-- V135 to V149: words with no descriptor. -/
theorem test_decode_unassigned :
    [0x00000000#32, 0x00000008#32, 0x00000020#32, 0x0000003F#32, 0x01404000#32].all
        (fun w => decide (decode w = .error .unassignedFunct)) = true ∧
    [0xFFFFFFFF#32, 0x04000000#32, 0x08000000#32, 0x0C000000#32, 0x14000000#32, 0x1C000000#32, 0x40000000#32, 0x8C000000#32,
        0xA0000000#32, 0xA8000000#32].all (fun w => decide (decode w = .error .unassignedOpcode)) = true := by decide

/-- V151 to V156: every bit outside the key set. -/
theorem test_decode_all_other_bits_set :
    decode 0x03FFFFC1#32 = .ok (.move 31#5 31#5) ∧ decode 0x03FFFFC7#32 = .ok (.ball 31#5 31#5) ∧
    decode 0x13FFFFFF#32 = .ok (.catchBr 31#5 0xFFFF#16) ∧ decode 0x3BFFFFFF#32 = .ok (.rng 31#5) ∧
    decode 0xA7FFFFFF#32 = .ok (.settypep2 31#5 0xFFFF#16) ∧ decode 0x3FFFFFFF#32 = .ok (.seti 31#5 0xFFFF#16) := by decide

/-- The parameters D3 and D5: the rs field under `I_TARGET_FIELD = rs`, V6's word refused under `check`. -/
theorem test_decode_parameters :
    decodeWith { config with iTargetField := .rs } 0x21000005#32 = .ok (.heal 8#5 5#16) ∧
    decodeWith { config with unusedFieldPolicy := .check } 0x015F47C1#32 = .error .unusedBitsSet ∧
    decodeWith { config with unusedFieldPolicy := .check } 0x01404001#32 = .ok (.move 8#5 10#5) := by decide

theorem test_decodeTableWord :
    decodeTableWord 32 0x01805807 = some (.ball 11#5 12#5) ∧ decodeTableWord 32 0 = none := by decide

/-! ## Single steps -/

/-- The reset state with some registers written. -/
def start (l : List (Reg × Word)) : State := l.foldl (fun s p => hostWrite config p.1 p.2 s) State.reset

/-- The state after one step on a word, if there is one. -/
def after (l : List (Reg × Word)) (w : Nat) : Option State :=
  match step ((start l).withFetchWord 32 w) with
  | .next t => some t
  | _ => none

/-- One register after one step on a word. -/
def regAfter (l : List (Reg × Word)) (w : Nat) (r : Reg) : Option Word := (after l w).map (readReg config · r)

/-- V2. -/
theorem test_move_wraps : regAfter [(8, 0x80000000), (10, 1)] 0x01404001 8 = some 0x7FFFFFFF#32 := by decide
/-- V4. -/
theorem test_move_same_register : regAfter [(8, 0x3039)] 0x01004001 8 = some 0#32 := by decide
/-- V5. -/
theorem test_move_register_0 : regAfter [(0, 0), (9, 1)] 0x01200001 0 = some 0xFFFFFFFF#32 := by decide
/-- V8. -/
theorem test_zerohp_ignores_other_fields : regAfter [(8, 0xFFFFFFFB), (31, 0x4D)] 0x03FF4003 8 = some 0#32 := by decide
/-- V9. -/
theorem test_temppower_copies : regAfter [(8, 0x46), (10, 1)] 0x01005004 10 = some 0x46#32 := by decide
/-- V17. -/
theorem test_crit_drops_the_top_bit : regAfter [(10, 0xC0000001)] 0x00005006 10 = some 0x80000002#32 := by decide
/-- V21. -/
theorem test_heal_sign_extends : regAfter [(8, 0)] 0x20088000 8 = some 0xFFFF8000#32 := by decide
/-- V26. -/
theorem test_buff_ignores_rs : regAfter [(8, 1), (31, 0x3E8)] 0x2BE80005 8 = some 6#32 := by decide
/-- V29. -/
theorem test_debuff_of_negative_adds : regAfter [(8, 0)] 0x2C088000 8 = some 0x00008000#32 := by decide
/-- S10, word 0x241F0001. -/
theorem test_settypep1_ignores_its_register :
    regAfter [(14, 0x55), (31, 3)] 0x241F0001 14 = some 1#32 ∧ regAfter [(14, 0x55), (31, 3)] 0x241F0001 31 = some 3#32 := by
  decide
/-- V38. -/
theorem test_settypep2_sign_extends : regAfter [(15, 0)] 0xA4008000 15 = some 0xFFFF8000#32 := by decide
/-- V47. -/
theorem test_setstatus_extends_its_mask : regAfter [(17, 0x10)] 0x30118001 17 = some 0xFFFF8011#32 := by decide
/-- V52. -/
theorem test_resetstatus_extends_then_inverts : regAfter [(17, 0xFFFFFFFF)] 0x34118000 17 = some 0x00007FFF#32 := by decide
/-- V45. -/
theorem test_seti_takes_rs : regAfter [(31, 5)] 0x3D1F0064 8 = some 0x64#32 := by decide
/-- V79. -/
theorem test_typeeff_halves_toward_zero :
    regAfter [(14, 1), (15, 2), (10, 0xFFFFFFFD)] 0x01E05005 10 = some 0xFFFFFFFF#32 := by decide
/-- V85: the attacker slot is also the power, read before it is written. -/
theorem test_typeeff_reads_before_it_writes : regAfter [(14, 1), (15, 4)] 0x01E07005 14 = some 2#32 := by decide
/-- V99. -/
theorem test_ball_same_register : regAfter [(11, 2)] 0x01605807 11 = some 5#32 := by decide
/-- V96. -/
theorem test_ball_compares_the_whole_register : regAfter [(11, 5), (12, 0x00010002)] 0x01805807 11 = some 5#32 := by decide
/-- V105 and V106. -/
theorem test_catch_is_signed :
    (after [(11, 1), (9, 0xFFFFFFFF)] 0x11600002).map State.pc = some 0x0040000C#32 ∧
    (after [(11, 0xFFFFFFFF), (9, 1)] 0x11600002).map State.pc = some 0x00400004#32 := by decide
/-- V114. -/
theorem test_catch_reaches_back : (after [(11, 1), (9, 0)] 0x11608000).map State.pc = some 0x003E0004#32 := by decide
/-- V119. -/
theorem test_rng_from_reset :
    (after [] 0x3BE8FFFF).map State.seed = some 0x0FD41F14#32 ∧ regAfter [] 0x3BE8FFFF 8 = some 3978#32 := by decide
/-- V124: the 38 bytes of S9. -/
theorem test_inspect_line :
    (after [(8, 0xFFFFFFFB)] 0x01000002).map State.console = some
      ([0x4c, 0x65, 0x74, 0x27, 0x73, 0x20, 0x6c, 0x6f, 0x6f, 0x6b, 0x20, 0x61, 0x74, 0x20, 0x74, 0x68, 0x65, 0x20, 0x73] ++
       [0x74, 0x61, 0x74, 0x20, 0x68, 0x65, 0x72, 0x65, 0x20, 0x28, 0x24, 0x74, 0x30, 0x29, 0x3a, 0x20, 0x2d, 0x35, 0x0a]) := by
  decide
/-- V129: the text and its 48 bytes. -/
theorem test_inspect_extreme :
    (lineBytes config 20#5 0x80000000#32).length = 48 ∧
    registerName 20#5 ++ decText 0x80000000#32 = ['$', 'r', '2', '0', '-', '2', '1', '4', '7', '4', '8', '3', '6', '4', '8'] := by
  decide
/-- P4: the word 0 faults with its pc, and the faulted machine answers that fault. -/
theorem test_zero_word_faults : (after [] 0).map State.status = some (.fault (some 0#32) 0x00400000#32) := by decide
/-- R199 a with the empty program of reset. -/
theorem test_reset_halts : step State.reset = .next { State.reset with status := .halted } := rfl

/-! ## Witnesses: states and operands that meet the hypotheses of the statements, at the boundaries of each clause -/

/-- A machine loaded with `seti $t0, 100` and `inspect $t0`. -/
def loaded : State := load config ⟨0x00400000#32, [0x3D000064#32, 0x01000002#32]⟩ State.reset

/-- The checking parameters. -/
def checking : Config := { config with unusedFieldPolicy := .check }

/-- The parameters that hardwire register 0. -/
def hardwired : Config := { config with reg0HardwiredZero := true }

/-- The type codes of `typeeff $t2, $t7` with a power of 10. -/
def types (att dfn : Word) : State := start [(14, att), (15, dfn), (10, 10)]

theorem witness_ReencodingClearsIgnoredBits : decodeWith checking 0x01404001#32 = .ok (.move 8#5 10#5) := by decide
theorem witness_IgnoredBitsDoNotChangeDecoding :
    decode 0x01404001#32 = .ok (.move 8#5 10#5) ∧
    (0x01404001#32 ^^^ 0x015F47C1#32) &&& ~~~(ignoredBits config (Instr.move 8#5 10#5).mnemonic) = 0#32 := by decide
theorem witness_CheckPolicyAcceptsCanonicalWordsOnly : checking.unusedFieldPolicy = .check := rfl
theorem witness_WordSelectsDescriptorByMatchAndMask :
    (⟨4, .settypep2, "settypep2 rd, imm", .iFormat, 0b101001#6, none⟩ : Descriptor) ∈ catalog := by decide
theorem witness_BytesDecodeAsTheirWord : ([] : List Byte).length < 4 ∧ [1#8, 2#8, 3#8].length < 4 := by decide
theorem witness_SignExtensionKeepsTheSignedValue : 16 ≤ 16 ∧ 16 < 32 ∧ 16 ≤ 31 ∧ 31 < 32 := by decide
theorem witness_HalvingTruncatesTowardZero :
    0 ≤ (0x00000000#32).toInt ∧ 0 ≤ (0x7FFFFFFF#32).toInt ∧ (0xFFFFFFFF#32).toInt < 0 ∧ (0x80000000#32).toInt < 0 ∧
    readReg config (types 1 2) 14#5 = 1#32 ∧ readReg config (types 1 2) 15#5 = 2#32 := by decide
theorem witness_DoublingIsAddAndShift :
    readReg config (types 1 4) 14#5 = 1#32 ∧ readReg config (types 1 4) 15#5 = 4#32 := by decide
theorem witness_StatusMasksActOnEachBit : 0 < 32 ∧ 15 < 32 ∧ 16 < 32 ∧ 31 < 32 := by decide
theorem witness_OnlyRegister : (0#5 : Reg) ≠ 31#5 := by decide

/-- V59, V64 and V75: one pair of each clause of the table, the last differing from a listed pair above bit 15 only. -/
theorem witness_TypeeffAppliesTheEffectivenessTable :
    (readReg config (types 1 4) 14#5, readReg config (types 1 4) 15#5) ∈
      [((1#32, 4#32) : Word × Word), (2#32, 1#32), (4#32, 2#32), (3#32, 2#32)] ∧
    (readReg config (types 2 4) 14#5, readReg config (types 2 4) 15#5) ∈
      [((1#32, 2#32) : Word × Word), (2#32, 4#32), (4#32, 1#32)] ∧
    (readReg config (types 0x00010001 4) 14#5, readReg config (types 0x00010001 4) 15#5) ∉
      [((1#32, 4#32) : Word × Word), (2#32, 1#32), (4#32, 2#32), (3#32, 2#32), (1#32, 2#32), (2#32, 4#32), (4#32, 1#32)] := by
  decide

/-- V89 to V93: one item code of each clause, 0 and 4 on the sides of the range. -/
theorem witness_BallAddsTheItemBonus :
    readReg config (start [(12, 1)]) 12#5 = 1#32 ∧ readReg config (start [(12, 2)]) 12#5 = 2#32 ∧
    readReg config (start [(12, 3)]) 12#5 = 3#32 ∧ readReg config (start [(12, 0)]) 12#5 ∉ [1#32, 2#32, 3#32] ∧
    readReg config (start [(12, 4)]) 12#5 ∉ [1#32, 2#32, 3#32] := by decide

/-- V103 and V104: equal and just greater. -/
theorem witness_CatchBranchesOnSignedGreater :
    signed (readReg config (start [(11, 0x29), (9, 0x28)]) 11#5) > signed (readReg config (start [(11, 0x29), (9, 0x28)]) 9#5) ∧
    signed (readReg config (start [(11, 0x28), (9, 0x28)]) 11#5) ≤ signed (readReg config (start [(11, 0x28), (9, 0x28)]) 9#5) := by
  decide

theorem witness_NamesAndNumbersAreTheSpecsText :
    (8 ≤ (8#5 : Reg).toNat ∧ (15#5 : Reg).toNat ≤ 15) ∧ (16 ≤ (16#5 : Reg).toNat ∧ (19#5 : Reg).toNat ≤ 19) ∧
    (7#5 : Reg).toNat < 8 ∧ 19 < (20#5 : Reg).toNat ∧ 0 ≤ (0#32 : Word).toInt ∧ (0xFFFFFFFF#32 : Word).toInt < 0 := by decide

theorem witness_EveryInstructionKeepsItsFrame :
    regWritten (.settypep1 8#5 1#16) ≠ some 8#5 ∧ (Instr.inspect 8#5).mnemonic ≠ .rng ∧ (Instr.rng 8#5).mnemonic ≠ .inspect := by
  decide

/-- Two states with the same registers 11 and 9 and different seeds. -/
theorem witness_ResultsDependOnlyOnRegistersRead :
    (∀ r ∈ regsRead (.catchBr 11#5 2#16), readReg config State.reset r = readReg config (State.reset.withSeed 7#32) r) ∧
    ((Instr.catchBr 11#5 2#16).mnemonic = .rng → State.reset.seed = (State.reset.withSeed 7#32).seed) ∧
    State.reset.pc = (State.reset.withSeed 7#32).pc := by decide

theorem witness_PcAdvancesUnlessCatchIsTaken :
    (∀ a off, Instr.move 8#5 10#5 = .catchBr a off →
      ¬ signed (readReg config State.reset a) > signed (readReg config State.reset 9#5)) ∧
    signed (readReg config (start [(11, 1)]) 11#5) > signed (readReg config (start [(11, 1)]) 9#5) :=
  ⟨fun _ _ h => Instr.noConfusion h, by decide⟩

theorem witness_TakenBranchGoesWhereTheResolverSays :
    gtSigned (readReg hardwired (start [(11, 1)]) 11#5) (readReg hardwired (start [(11, 1)]) 9#5) = true ∧
    gtSigned (readReg hardwired (start []) 11#5) (readReg hardwired (start []) 9#5) = false ∧
    (0xFFFFFFFC#32 : Word).toNat % 4 = 0 := by decide

theorem witness_Register0FollowsItsParameter : hardwired.reg0HardwiredZero = true ∧ config.reg0HardwiredZero = false := by
  decide

theorem witness_CanonicalMemoriesWithSameBytesAreEqual :
    ∃ m n : List Host.Cell, Memory.wf m = true ∧ Memory.wf n = true ∧ m ≠ [] ∧
      ∀ a, Memory.readByte m a = Memory.readByte n a :=
  ⟨Memory.writeByte [] 4 1#8, Memory.writeByte (Memory.writeByte [] 3 2#8) 3 0#8 ++ [(4, 1#8)], by decide, by decide, by decide,
    fun _ => rfl⟩

/-- The first word, the last, the end and one address on either side. -/
theorem witness_FetchAfterLoadReadsTheProgram :
    State.reset.faulted = false ∧ Program.wf ⟨0x00400000#32, [1#32, 2#32]⟩ = true ∧ (0x00400000#32 : Word).toNat = (0x00400000#32 : Word).toNat + 4 * 0 ∧
    (0x00400004#32 : Word).toNat = (0x00400000#32 : Word).toNat + 4 * 1 ∧
    (0x00400008#32 : Word).toNat = (0x00400000#32 : Word).toNat + 4 * 2 ∧
    (∀ k, k ≤ 2 → (0x003FFFFC#32 : Word).toNat ≠ (0x00400000#32 : Word).toNat + 4 * k) ∧
    (∀ k, k ≤ 2 → (0x00400002#32 : Word).toNat ≠ (0x00400000#32 : Word).toNat + 4 * k) :=
  ⟨by decide, by decide, by decide, by decide, by decide, by decide, by decide⟩

theorem witness_LoadStartsTheProgramAndKeepsTheRest :
    State.reset.faulted = false ∧ (haltRun State.reset).faulted = false ∧ Program.wf ⟨0x00400000#32, [0x3D000064#32]⟩ = true ∧
    Program.words ⟨0x00400000#32, [0x3D000064#32]⟩ = 0x3D000064#32 :: [] := by decide

/-- A loaded machine and the same machine halted; registers other than the one written. -/
theorem witness_HostWriteIsReadBack :
    loaded.faulted = false ∧ (haltRun loaded).faulted = false ∧ (0#5 : Reg) ≠ 31#5 := by decide

/-- A faulted machine with a word, and one without. -/
theorem witness_FaultIsLeftOnlyByReset :
    (raiseDecodeFail 0#32 loaded).faulted = true ∧ (raiseFetchFault loaded).faulted = true := by decide

theorem witness_PlacedWordRunsNext :
    Memory.wf loaded.imem = true ∧ Memory.wf (raiseFetchFault loaded).imem = true ∧ (raiseFetchFault loaded).faulted = true ∧
    decode (BitVec.ofNat 32 0x01404001) = .ok (.move 8#5 10#5) ∧ loaded.pc.toNat % 4 = 0 ∧ loaded.faulted = false := by
  decide

/-- A Fault outlasts a load and is left by `rst`, after which a load starts the program (R177, R191). -/
theorem test_fault_needs_rst :
    (load config ⟨0x00400000#32, [1#32]⟩ (raiseFetchFault loaded)).status = .fault none 0x00400000#32 ∧
    (load config ⟨0x00400000#32, [1#32]⟩ (assertRst config (raiseFetchFault loaded))).status = .running := by decide

theorem witness_StepRunsTheDecodedInstruction :
    loaded.status = .running ∧ fetch config loaded = .word 0x3D000064#32 ∧ decode 0x3D000064#32 = .ok (.seti 8#5 100#16) := by
  decide

theorem witness_EndOfProgramHalts :
    State.reset.status = .running ∧
    (loaded.withPc 0x00400008#32).pc.toNat = (loaded.withPc 0x00400008#32).progBase.toNat +
      4 * (loaded.withPc 0x00400008#32).progLen ∧ (loaded.withPc 0x00400008#32).status = .running := by decide

theorem witness_FetchOutsideTheProgramFaults :
    (loaded.withPc 0x0040000C#32).status = .running ∧ loaded.progBase.toNat % 4 = 0 ∧
    (∀ k, k ≤ (loaded.withPc 0x0040000C#32).progLen →
      (loaded.withPc 0x0040000C#32).pc.toNat ≠ (loaded.withPc 0x0040000C#32).progBase.toNat + 4 * k) ∧
    (∀ k, k ≤ (loaded.withPc 0x00400002#32).progLen →
      (loaded.withPc 0x00400002#32).pc.toNat ≠ (loaded.withPc 0x00400002#32).progBase.toNat + 4 * k) := by decide

theorem witness_DecodeFailRecordsWordAndPc :
    (State.reset.withFetchWord 32 0).status = .running ∧ fetch config (State.reset.withFetchWord 32 0) = .word 0#32 ∧
    decode 0#32 = .error .unassignedFunct := by decide

theorem witness_StoppedMachineTakesNoStep :
    (haltRun loaded).status = .halted ∧ (raiseDecodeFail 0#32 loaded).status = .fault (some 0#32) 0x00400000#32 ∧
    (raiseFetchFault loaded).status = .fault none 0x00400000#32 := by decide

/-- `seti` runs with neither output; `inspect` drives the console port, `catch` the branch port. -/
theorem witness_OutputsAgreeWithTheStep :
    loaded.status = .running ∧ fetch config loaded = .word 0x3D000064#32 ∧ (∃ t, stepWith config loaded = .next t) ∧
    (outputs config 0x3D000064#32 loaded).branch = none ∧ (outputs config 0x3D000064#32 loaded).con = none ∧
    (outputs config 0x01000002#32 loaded).con = some (8#5, 0#32) ∧
    (outputs config 0x11600002#32 (start [(11, 1)])).branch = some 2#16 ∧ (outputs config 0#32 loaded).illegal = true :=
  ⟨rfl, by decide, ⟨_, rfl⟩, by decide, by decide, by decide, by decide, by decide⟩

theorem loaded_wf : StateWf config loaded where
  canonical := by decide
  inside := by decide
  baseAligned := by decide
  fits := by decide
  pcAligned := by decide
  status := trivial

theorem witness_ResetAndLoadGiveWellFormedStates :
    Program.wf ⟨0x00400000#32, [0x3D000064#32, 0x01000002#32]⟩ = true ∧ State.reset.faulted = false ∧ StateWf config loaded :=
  ⟨by decide, by decide, loaded_wf⟩

/-- A resolver that is aligned and not the default: every taken branch goes to address 0. -/
theorem witness_EveryStepKeepsStateWellFormed :
    StateWf config loaded ∧ (∃ t, step loaded = .next t) ∧ ResolverAligned { config with resolve := fun _ _ => 0#32 } :=
  ⟨loaded_wf, ⟨_, rfl⟩, fun _ _ _ => rfl⟩

theorem witness_SeedBit31StaysClear : loaded.seed.getLsbD 31 = false ∧ ∃ t, step loaded = .next t :=
  ⟨by decide, ⟨_, rfl⟩⟩

/-- The hypothesis of the statements about runs: a run of two steps that executes `seti` and `inspect`. -/
theorem witness_Run : ∃ t, Run config loaded (eventOf config loaded ++ (eventOf config (runRoutine config (.seti 8#5 100#16) loaded) ++ [])) t :=
  ⟨_, .step (t := runRoutine config (.seti 8#5 100#16) loaded) rfl (.step rfl (.stop _))⟩

theorem witness_Run_events :
    eventOf config loaded = [⟨.seti 8#5 100#16, loaded⟩] ∧
    (eventOf config (runRoutine config (.seti 8#5 100#16) loaded)).map Event.instr = [.inspect 8#5] := by decide

end Sys2Proof.Tests
end

/-!
SUPPORT. The proofs of the family 00_scope.md: bitwise masks (R12, R17) and doubling (R13), and the facts about single
operations they use.
-/

namespace Sys2Proof.Machine

/-! ## An instruction that writes one register -/

/-- The register an instruction writes holds the value its routine writes there. -/
theorem exec_readReg_written {i : Instr} {a : Reg} {v : Word} {s : State}
    (h : runRoutine config i s = advance (writeReg config a v s)) :
    ∃ t, exec i s = .next t ∧ readReg config t a = v := by
  refine ⟨advance (writeReg config a v s), ?_, ?_⟩
  · rw [exec_eq, h]
  · rw [readReg_advance, readReg_writeReg_self]

/-! ## Masks -/

/-- Above bit 15 a sign-extended immediate repeats its bit 15 (R12). -/
theorem getLsbD_sext16 (m : Half) {k : Nat} (hk : k < 32) : (sext16 m).getLsbD k = m.getLsbD (min k 15) := by
  rw [sext16, BitVec.getLsbD_signExtend, decide_eq_true hk, Bool.true_and]
  split
  · next hlow => rw [Nat.min_eq_left (by omega)]
  · next hhigh => rw [Nat.min_eq_right (by omega), BitVec.msb_eq_getLsbD_last]

theorem getLsbD_setBits (x m : Word) (k : Nat) : (setBits x m).getLsbD k = (x.getLsbD k || m.getLsbD k) :=
  BitVec.getLsbD_or

theorem getLsbD_clearBits (x m : Word) {k : Nat} (hk : k < 32) :
    (clearBits x m).getLsbD k = (x.getLsbD k && !m.getLsbD k) := by
  rw [clearBits, BitVec.getLsbD_and, BitVec.getLsbD_not, decide_eq_true hk, Bool.true_and]

/-! ## Doubling -/

theorem mul2_eq_add_self (x : Word) : mul2 x = x + x := by
  apply BitVec.eq_of_toInt_eq
  rw [mul2, word, BitVec.toInt_ofInt, BitVec.toInt_add, two_mul]

theorem mul2_eq_shiftLeft (x : Word) : mul2 x = x <<< 1 := by
  calc mul2 x
    _ = x + x := mul2_eq_add_self x
    _ = x * 2#32 := BitVec.mul_two.symm
    _ = x <<< 1 := BitVec.mul_twoPow_eq_shiftLeft x 1

/-! ## The effectiveness table -/

theorem pairIn_iff_mem (l : List (Word × Word)) (att dfn : Word) : pairIn l att dfn = true ↔ (att, dfn) ∈ l := by
  simp only [pairIn, eqWord, List.any_eq_true, Bool.and_eq_true, beq_iff_eq]
  constructor
  · rintro ⟨p, hp, rfl, rfl⟩
    exact hp
  · exact fun h => ⟨(att, dfn), h, rfl, rfl⟩

theorem effectivePower_superEffective {att dfn : Word} (h : (att, dfn) ∈ superEffective) (power : Word) :
    effectivePower att dfn power = mul2 power :=
  if_pos ((pairIn_iff_mem _ _ _).2 h)

end Sys2Proof.Machine

/-! ## The obligations -/

namespace Sys2Proof.Proofs.Scope

open Sys2Proof.Machine

/-- Settles O13: the immediate is sign-extended first, then the mask acts on each bit. -/
theorem statusMasksActOnEachBit : Obligations.StatusMasksActOnEachBit := by
  unfold Obligations.StatusMasksActOnEachBit
  intro a m s
  constructor
  · obtain ⟨t, ht, hv⟩ := exec_readReg_written (i := .setstatus a m) (s := s) rfl
    refine ⟨t, ht, fun k hk => ?_⟩
    rw [hv, getLsbD_setBits, getLsbD_sext16 m hk]
  · obtain ⟨t, ht, hv⟩ := exec_readReg_written (i := .resetstatus a m) (s := s) rfl
    refine ⟨t, ht, fun k hk => ?_⟩
    rw [hv, getLsbD_clearBits _ _ hk, getLsbD_sext16 m hk]

/-- Settles O11: (1, 4) is the first pair of the super-effective list, so `typeeff` doubles there as `crit` does. -/
theorem doublingIsAddAndShift : Obligations.DoublingIsAddAndShift := by
  unfold Obligations.DoublingIsAddAndShift
  refine ⟨fun x => ⟨rfl, mul2_eq_add_self x, mul2_eq_shiftLeft x⟩, by decide, fun a b s => ⟨?_, fun hatt hdef => ?_⟩⟩
  · exact exec_readReg_written (i := .crit a) rfl
  · have hsuper : (readReg config s attackerSlot, readReg config s b) ∈ superEffective := by
      rw [attackerSlot, hatt, hdef]
      decide
    rw [← effectivePower_superEffective hsuper]
    exact exec_readReg_written (i := .typeeff a b) rfl

end Sys2Proof.Proofs.Scope

/-!
SUPPORT. The proof of the family 30_encoding.md about match and mask (R64). The bridge is the decode key: a masked word is
a descriptor's pattern exactly where opcode and funct are the descriptor's key, and the closed match on the key answers a
name exactly for the key of the one row with that name.
-/

namespace Sys2Proof

/-! ## Match and mask on the key -/

/-- Whether an opcode and a funct are the key of a descriptor; the funct counts only where the descriptor has one (R64). -/
def Descriptor.HasKey (d : Descriptor) (op fn : BitVec 6) : Prop :=
  op = d.opcode ∧ ∀ f ∈ d.funct, fn = f

theorem and_opcodeMask (w : Word) : w &&& 0xFC000000#32 = opcodeOf w ++ 0#26 := by
  apply BitVec.eq_of_getLsbD_eq
  intro k hk
  simp only [opcodeOf, BitVec.getLsbD_and, BitVec.getLsbD_append, BitVec.getLsbD_extractLsb']
  interval_cases k <;> simp

theorem and_opcodeFunctMask (w : Word) : w &&& 0xFC00003F#32 = opcodeOf w ++ 0#20 ++ functOf w := by
  apply BitVec.eq_of_getLsbD_eq
  intro k hk
  simp only [opcodeOf, functOf, BitVec.getLsbD_and, BitVec.getLsbD_append, BitVec.getLsbD_extractLsb']
  interval_cases k <;> simp

theorem bitVec_append_eq_append_iff {m n : Nat} {x x' : BitVec m} {y y' : BitVec n} :
    x ++ y = x' ++ y' ↔ x = x' ∧ y = y' := by
  constructor
  · intro h
    have hleft := congrArg (BitVec.extractLsb' n m) h
    have hright := congrArg (BitVec.extractLsb' 0 n) h
    rw [BitVec.extractLsb'_append_eq_left, BitVec.extractLsb'_append_eq_left] at hleft
    rw [BitVec.extractLsb'_append_eq_right, BitVec.extractLsb'_append_eq_right] at hright
    exact ⟨hleft, hright⟩
  · rintro ⟨rfl, rfl⟩
    rfl

/-- The masked word is the pattern exactly where the word's fields are the key, for any descriptor whatever. -/
theorem and_mask_eq_pattern_iff (d : Descriptor) (w : Word) :
    w &&& d.mask = d.pattern ↔ d.HasKey (opcodeOf w) (functOf w) := by
  unfold Descriptor.mask Descriptor.pattern Descriptor.HasKey
  cases d.funct with
  | none =>
    have hkey : opcodeOf w ++ 0#26 = d.opcode ++ 0#26 ↔ opcodeOf w = d.opcode := BitVec.append_left_inj _
    simpa [and_opcodeMask] using hkey
  | some f =>
    have hkey : opcodeOf w ++ 0#20 ++ functOf w = d.opcode ++ 0#20 ++ f ↔ opcodeOf w = d.opcode ∧ functOf w = f := by
      rw [bitVec_append_eq_append_iff, BitVec.append_left_inj]
    simpa [and_opcodeFunctMask] using hkey

/-! ## The closed match against the catalog -/

theorem functMap_sound {fn : BitVec 6} {m : Mnemonic} (h : functMap fn = .ok m) :
    ∃ d ∈ catalogR, d.mnemonic = m ∧ d.HasKey 0#6 fn := by
  unfold functMap at h
  split at h
  all_goals cases h
  all_goals simp [catalogR, Descriptor.HasKey]

/-- A name the key selects is the name of a row with that key. -/
theorem keyMap_sound {op fn : BitVec 6} {m : Mnemonic} (h : keyMap op fn = .ok m) :
    ∃ d ∈ catalog, d.mnemonic = m ∧ d.HasKey op fn := by
  unfold keyMap at h
  split at h
  case h_1 =>
    obtain ⟨d, hd, hkey⟩ := functMap_sound h
    exact ⟨d, List.mem_append_left _ hd, hkey⟩
  all_goals cases h
  all_goals simp [catalog, catalogR, catalogI, Descriptor.HasKey]

/-- The key of a row selects the row's name. -/
theorem keyMap_complete {d : Descriptor} (hd : d ∈ catalog) {op fn : BitVec 6} (h : d.HasKey op fn) :
    keyMap op fn = .ok d.mnemonic := by
  have hkey : ∀ d ∈ catalog, ∀ fn, keyMap d.opcode (d.funct.getD fn) = .ok d.mnemonic := by
    simp [catalog, catalogR, catalogI, keyMap, functMap]
  obtain ⟨hop, hfn⟩ := h
  have hget : d.funct.getD fn = fn := by
    cases hf : d.funct with
    | none => rfl
    | some f => exact (hfn f hf).symm
  rw [hop, ← hget]
  exact hkey d hd fn

theorem catalog_mnemonic_injective : ∀ d ∈ catalog, ∀ e ∈ catalog, d.mnemonic = e.mnemonic → d = e := by
  decide

theorem keyMap_eq_ok_iff {d : Descriptor} (hd : d ∈ catalog) (op fn : BitVec 6) :
    keyMap op fn = .ok d.mnemonic ↔ d.HasKey op fn := by
  constructor
  · intro h
    obtain ⟨e, he, hname, hkey⟩ := keyMap_sound h
    rwa [catalog_mnemonic_injective e he d hd hname] at hkey
  · exact keyMap_complete hd

/-! ## The decoder against the key -/

@[simp] theorem mnemonic_operandsOf (c : Config) (m : Mnemonic) (w : Word) : (operandsOf c m w).mnemonic = m := by
  cases m <;> rfl

/-- The running machine ignores unused bits, so the key alone settles which row a word decodes to (R65, D5). -/
theorem decode_eq (w : Word) : decode w = (keyMap (opcodeOf w) (functOf w)).map fun m => operandsOf config m w := by
  unfold decode decodeWith
  cases keyMap (opcodeOf w) (functOf w) <;> rfl

theorem decode_ok_mnemonic_iff (w : Word) (m : Mnemonic) :
    (∃ i, decode w = .ok i ∧ i.mnemonic = m) ↔ keyMap (opcodeOf w) (functOf w) = .ok m := by
  rw [decode_eq]
  cases keyMap (opcodeOf w) (functOf w) <;> simp [Except.map]

end Sys2Proof

/-! ## The obligations -/

namespace Sys2Proof.Proofs.Encoding

/-- Settles O3: decoding and match-and-mask are both equivalent to having the descriptor's key, and two rows with one key
would share a name. -/
theorem wordSelectsDescriptorByMatchAndMask : Obligations.WordSelectsDescriptorByMatchAndMask := by
  unfold Obligations.WordSelectsDescriptorByMatchAndMask
  refine ⟨fun d hd w => ?_, by decide, fun d hd e he w hdw hew => ?_⟩
  · rw [decode_ok_mnemonic_iff, keyMap_eq_ok_iff hd, and_mask_eq_pattern_iff]
  · have hkey {f : Descriptor} (hf : f.selects w = true) : f.HasKey (opcodeOf w) (functOf w) :=
      (and_mask_eq_pattern_iff f w).1 (eq_of_beq hf)
    have hname : (Except.ok d.mnemonic : Except Reject Mnemonic) = .ok e.mnemonic :=
      (keyMap_complete hd (hkey hdw)).symm.trans (keyMap_complete he (hkey hew))
    exact catalog_mnemonic_injective d hd e he (Except.ok.inj hname)

end Sys2Proof.Proofs.Encoding

/-!
SUPPORT. The proofs of the family 40_register_alu.md (R100 to R104): the layout of an R_FORMAT word whatever its ignored
fields hold, the frame of an instruction that writes one register, and products with a signed value.
-/

namespace Sys2Proof

/-! ## The R_FORMAT layout -/

/-- An R_FORMAT word with every field given, the ignored ones too (R61). -/
def wordR (rs rt rd : Reg) (u : BitVec 5) (fn : BitVec 6) : Word :=
  0b000000#6 ++ rs ++ rt ++ rd ++ u ++ fn

section
variable (rs rt rd : Reg) (u : BitVec 5) (fn : BitVec 6)

/-- The word the encoder assembles has its ignored fields clear (R81). -/
theorem packR_eq_wordR : packR rs rd fn = wordR rs 0#5 rd 0#5 fn := rfl

theorem functOf_wordR : functOf (wordR rs rt rd u fn) = fn :=
  BitVec.extractLsb'_append_eq_right

theorem rdOf_wordR : rdOf (wordR rs rt rd u fn) = rd := by
  unfold rdOf wordR
  iterate 2 rw [BitVec.extractLsb'_append_eq_of_le (by decide)]
  exact BitVec.extractLsb'_append_eq_right

theorem rsOf_wordR : rsOf (wordR rs rt rd u fn) = rs := by
  unfold rsOf wordR
  iterate 4 rw [BitVec.extractLsb'_append_eq_of_le (by decide)]
  exact BitVec.extractLsb'_append_eq_right

theorem opcodeOf_wordR : opcodeOf (wordR rs rt rd u fn) = 0#6 := by
  unfold opcodeOf wordR
  iterate 4 rw [BitVec.extractLsb'_append_eq_of_le (by decide)]
  exact BitVec.extractLsb'_append_eq_left

/-- An R_FORMAT word is the row of its funct, whatever its other fields hold (R65, R72). -/
theorem decode_wordR {fn : BitVec 6} {m : Mnemonic} (h : functMap fn = .ok m) :
    decode (wordR rs rt rd u fn) = .ok (operandsOf config m (wordR rs rt rd u fn)) := by
  have hkey : keyMap 0#6 fn = .ok m := h
  rw [decode_eq, opcodeOf_wordR, functOf_wordR, hkey]
  rfl

end

/-! ## Products with a signed value -/

theorem word_mul_signed (k : Int) (x : Word) : word (k * signed x) = word k * x := by
  rw [word, word, BitVec.ofInt_mul, BitVec.ofInt_toInt]

namespace Machine

/-- Doubling twice, each wrapping, is one wrapping product with 4 (R104). -/
theorem mul2_mul2 (x : Word) : mul2 (mul2 x) = word (4 * signed x) := by
  calc mul2 (mul2 x)
    _ = word 2 * (word 2 * x) := by rw [mul2, word_mul_signed, mul2, word_mul_signed]
    _ = word 4 * x := by rw [← mul_assoc]; rfl
    _ = word (4 * signed x) := (word_mul_signed 4 x).symm

/-! ## The frame of an instruction that writes one register -/

/-- A register write and the advance of the pc change that register and the pc alone (R100). -/
theorem onlyRegister_advance_writeReg (a : Reg) (v : Word) (s : State) :
    OnlyRegister a s (advance (writeReg config a v s)) := by
  have hprogram : SameProgram s (advance (writeReg config a v s)) := by
    refine ⟨?_, ?_, ?_, fun _ => ?_⟩ <;> simp
  refine ⟨fun r hr => ?_, ?_, ?_, ?_, ?_, hprogram⟩
  · rw [readReg_advance, readReg_writeReg_ne config hr]
  all_goals simp

/-- An instruction whose routine writes one register leaves the value there and everything else as it was. -/
theorem exec_onlyRegister {i : Instr} {a : Reg} {v : Word} {s : State}
    (h : runRoutine config i s = advance (writeReg config a v s)) :
    ∃ t, exec i s = .next t ∧ readReg config t a = v ∧ OnlyRegister a s t := by
  refine ⟨advance (writeReg config a v s), ?_, ?_, onlyRegister_advance_writeReg a v s⟩
  · rw [exec_eq, h]
  · rw [readReg_advance, readReg_writeReg_self]

end Machine

end Sys2Proof

/-! ## The obligations -/

namespace Sys2Proof.Proofs.RegisterAlu

open Sys2Proof.Machine

/-- Settles O15: A is the rd field, B the rs field, and `move` writes the wrapping difference. -/
theorem moveSubtractsSecondFromFirst : Obligations.MoveSubtractsSecondFromFirst := by
  unfold Obligations.MoveSubtractsSecondFromFirst
  intro a b rt u
  have hdecode : decode (wordR b rt a u 0b000001#6) = .ok (.move a b) := by
    rw [decode_wordR b rt a u (m := .move) rfl, operandsOf, rdOf_wordR, rsOf_wordR]
  refine ⟨hdecode, packR_eq_wordR b a _, fun s => ?_⟩
  rw [← sub_eq]
  exact exec_onlyRegister rfl

/-- Settles O16: the value written is a constant. -/
theorem zerohpWritesZero : Obligations.ZerohpWritesZero := by
  unfold Obligations.ZerohpWritesZero
  intro a rs rt u
  have hdecode : decode (wordR rs rt a u 0b000011#6) = .ok (.zerohp a) := by
    rw [decode_wordR rs rt a u (m := .zerohp) rfl, operandsOf, rdOf_wordR]
  exact ⟨hdecode, packR_eq_wordR 0#5 a _, fun s => exec_onlyRegister rfl⟩

/-- Settles O17: where B is A the value written is the one it held, elsewhere B is in the frame. -/
theorem temppowerCopiesSecondToFirst : Obligations.TemppowerCopiesSecondToFirst := by
  unfold Obligations.TemppowerCopiesSecondToFirst
  intro a b rt u
  have hdecode : decode (wordR b rt a u 0b000100#6) = .ok (.temppower a b) := by
    rw [decode_wordR b rt a u (m := .temppower) rfl, operandsOf, rdOf_wordR, rsOf_wordR]
  refine ⟨hdecode, packR_eq_wordR b a _, fun s => ?_⟩
  obtain ⟨t, ht, hv, honly⟩ := exec_onlyRegister (i := .temppower a b) (s := s) rfl
  refine ⟨t, ht, hv, ?_, honly⟩
  by_cases hba : b = a
  · rw [hba] at hv ⊢
    exact hv
  · obtain ⟨hother, -⟩ := honly
    exact hother b hba

/-- Settles O18: the second `crit` doubles what the first one left. -/
theorem critDoublesItsRegister : Obligations.CritDoublesItsRegister := by
  unfold Obligations.CritDoublesItsRegister
  intro a rs rt u
  have hdecode : decode (wordR rs rt a u 0b000110#6) = .ok (.crit a) := by
    rw [decode_wordR rs rt a u (m := .crit) rfl, operandsOf, rdOf_wordR]
  refine ⟨hdecode, packR_eq_wordR 0#5 a _, fun s => ?_⟩
  obtain ⟨t, ht, hv, honly⟩ := exec_onlyRegister (i := .crit a) (s := s) rfl
  obtain ⟨t', ht', hv'⟩ := exec_readReg_written (i := .crit a) (s := t) rfl
  refine ⟨t, ht, hv, honly, t', ht', ?_⟩
  rw [hv', hv, mul2_mul2]

end Sys2Proof.Proofs.RegisterAlu

/-!
SUPPORT. The proof of the family 41_immediate_alu.md about `seti` (R118): the decode of an I_FORMAT word whatever its
fields hold. The fields themselves are read by the laws about `packI`.
-/

namespace Sys2Proof

/-- An I_FORMAT word, its ignored field too, is the row of its opcode where that opcode has no funct (R65, R71). -/
theorem decode_packI {op : BitVec 6} {m : Mnemonic} (h : ∀ fn, keyMap op fn = .ok m) (rs rt : Reg) (imm : Half) :
    decode (packI op rs rt imm) = .ok (operandsOf config m (packI op rs rt imm)) := by
  rw [decode_eq, Laws.EncodedKey.keyMap_packI op rs rt imm m h]
  rfl

end Sys2Proof

/-! ## The obligations -/

namespace Sys2Proof.Proofs.ImmediateAlu

open Sys2Proof.Machine

/-- Settles O26: A is the rs field, and sign extension to a wider word keeps the signed value (R12). -/
theorem setiLoadsSignedImmediate : Obligations.SetiLoadsSignedImmediate := by
  unfold Obligations.SetiLoadsSignedImmediate
  intro a rt imm
  have hdecode : decode (packI 0b001111#6 a rt imm) = .ok (.seti a imm) := by
    rw [decode_packI (m := .seti) (fun _ => rfl), operandsOf, rsOf_packI, immOf_packI]
  refine ⟨hdecode, rfl, fun s => ?_⟩
  obtain ⟨t, ht, hv, honly⟩ := exec_onlyRegister (i := .seti a imm) (s := s) rfl
  refine ⟨t, ht, hv, ?_, honly⟩
  rw [hv, sext16, BitVec.toInt_signExtend_of_le (by decide)]

end Sys2Proof.Proofs.ImmediateAlu

/-!
SUPPORT. The proofs of the family 42_lookup.md (R131, R132): what the effectiveness table and the item table answer on
each class of codes. The layout and the frame are those of the family 40_register_alu.md.
-/

namespace Sys2Proof.Machine

/-! ## Halving -/

/-- A half lies within the signed range, so nothing is cut off (R14). -/
theorem signed_div2t (x : Word) : signed (div2t x) = (signed x).tdiv 2 := by
  have hlow : -2 ^ 31 ≤ signed x := BitVec.le_toInt x
  have hhigh : signed x < 2 ^ 31 := BitVec.toInt_lt
  have hsum : 2 * (signed x).tdiv 2 + (signed x).tmod 2 = signed x := Int.mul_tdiv_add_tmod _ _
  have hremLow : -2 < (signed x).tmod 2 := Int.lt_tmod_of_pos _ (by decide)
  have hremHigh : (signed x).tmod 2 < 2 := Int.tmod_lt_of_pos _ (by decide)
  exact BitVec.toInt_ofInt_eq_self (by decide) (by omega) (by omega)

/-! ## The rest of the effectiveness table -/

theorem notMem_superEffective_of_mem_notVeryEffective :
    ∀ p ∈ notVeryEffective, p ∉ superEffective := by
  simp [notVeryEffective, superEffective]

section
variable {att dfn : Word}

theorem effectivePower_of_notMem_superEffective (h : (att, dfn) ∉ superEffective) (power : Word) :
    effectivePower att dfn power = if pairIn notVeryEffective att dfn then div2t power else power :=
  if_neg (mt (pairIn_iff_mem _ _ _).1 h)

theorem effectivePower_notVeryEffective (h : (att, dfn) ∈ notVeryEffective) (power : Word) :
    effectivePower att dfn power = div2t power := by
  rw [effectivePower_of_notMem_superEffective (notMem_superEffective_of_mem_notVeryEffective _ h)]
  exact if_pos ((pairIn_iff_mem _ _ _).2 h)

/-- A pair in neither list is neutral (R131, R133). -/
theorem effectivePower_neutral (h : (att, dfn) ∉ superEffective ++ notVeryEffective) (power : Word) :
    effectivePower att dfn power = power := by
  have hsuper : (att, dfn) ∉ superEffective := mt (List.mem_append_left _) h
  have hnot : (att, dfn) ∉ notVeryEffective := mt (List.mem_append_right _) h
  rw [effectivePower_of_notMem_superEffective hsuper]
  exact if_neg (mt (pairIn_iff_mem _ _ _).1 hnot)

end

/-! ## The item table -/

/-- An item code without a row adds nothing (R132). -/
theorem itemBonus_eq_zero {item : Word} (h : item ∉ [1#32, 2#32, 3#32]) : itemBonus item = 0#32 := by
  simp only [List.mem_cons, List.not_mem_nil, or_false, not_or] at h
  obtain ⟨h1, h2, h3⟩ := h
  simp [itemBonus, eqWord, h1, h2, h3]

end Sys2Proof.Machine

/-! ## The obligations -/

namespace Sys2Proof.Proofs.Lookup

open Sys2Proof.Machine

/-- Settles O27: `typeeff` writes the table's answer for the old codes and power, and the three clauses are the table's
two lists and their complement. -/
theorem typeeffAppliesTheEffectivenessTable : Obligations.TypeeffAppliesTheEffectivenessTable := by
  unfold Obligations.TypeeffAppliesTheEffectivenessTable
  intro a b rt u
  have hdecode : decode (wordR b rt a u 0b000101#6) = .ok (.typeeff a b) := by
    rw [decode_wordR b rt a u (m := .typeeff) rfl, operandsOf, rdOf_wordR, rsOf_wordR]
  refine ⟨hdecode, packR_eq_wordR b a _, fun s => ?_⟩
  obtain ⟨t, ht, hv, honly⟩ := exec_onlyRegister (i := .typeeff a b) (s := s) rfl
  refine ⟨t, ht, honly, fun hsuper => ?_, fun hnot => ?_, fun hneutral => ?_⟩
  · exact hv.trans (effectivePower_superEffective hsuper _)
  · rw [hv, attackerSlot, effectivePower_notVeryEffective hnot, signed_div2t]
  · exact hv.trans (effectivePower_neutral hneutral _)

/-- Settles O28: `ball` writes the wrapping sum of the old x[A] and the bonus of the old x[B]. -/
theorem ballAddsTheItemBonus : Obligations.BallAddsTheItemBonus := by
  unfold Obligations.BallAddsTheItemBonus
  intro a b rt u
  have hdecode : decode (wordR b rt a u 0b000111#6) = .ok (.ball a b) := by
    rw [decode_wordR b rt a u (m := .ball) rfl, operandsOf, rdOf_wordR, rsOf_wordR]
  refine ⟨hdecode, packR_eq_wordR b a _, fun s => ?_⟩
  obtain ⟨t, ht, hv, honly⟩ := exec_onlyRegister (i := .ball a b) (s := s) rfl
  rw [add_eq] at hv
  refine ⟨t, ht, honly, fun h1 => ?_, fun h2 => ?_, fun h3 => ?_, fun hother => ?_⟩
  · rw [hv, h1]; rfl
  · rw [hv, h2]; rfl
  · rw [hv, h3]; rfl
  · rw [hv, itemBonus_eq_zero hother, BitVec.add_zero]

end Sys2Proof.Proofs.Lookup

/-!
SUPPORT. The proof of the family 45_console.md (R161): an instruction run on another console appends the same line there
and does the same elsewhere. That it appends that line at all is the case of the machine's own console. Then what a step
executes, and the induction over runs.
-/

namespace Sys2Proof.Machine

/-! ## The console against the other operations -/

theorem writeReg_withConsole (c : Config) (r : Reg) (v : Word) (s : State) (x : List Byte) :
    writeReg c r v (s.withConsole x) = (writeReg c r v s).withConsole x := by
  unfold writeReg
  split <;> rfl

/-- An instruction that writes one register has no line, and moves along with any console. -/
theorem advance_writeReg_withConsole (c : Config) (r : Reg) (v : Word) (s : State) (x : List Byte) :
    advance (writeReg c r v (s.withConsole x)) = (advance (writeReg c r v s)).withConsole (x ++ []) := by
  rw [writeReg_withConsole, List.append_nil]
  rfl

/-- A branch decision reads registers only (R141), so `catch` moves along with any console too. -/
theorem routineCatch_withConsole (c : Config) (a : Reg) (off : Half) (s : State) (x : List Byte) :
    routineCatch c a off (s.withConsole x) = (routineCatch c a off s).withConsole (x ++ []) := by
  have htaken : branchTaken c a (s.withConsole x) = branchTaken c a s := rfl
  unfold routineCatch
  rw [htaken, List.append_nil]
  cases branchTaken c a s <;> rfl

/-! ## The console against a routine -/

/-- On another console an instruction appends the same bytes and otherwise does the same: it never reads the console. -/
theorem runRoutine_withConsole (c : Config) (i : Instr) (s : State) (x : List Byte) :
    runRoutine c i (s.withConsole x) = (runRoutine c i s).withConsole (x ++ Event.line c ⟨i, s⟩) := by
  cases i with
  | inspect a => rfl
  | catchBr a off => exact routineCatch_withConsole c a off s x
  | rng a => exact advance_writeReg_withConsole c a _ (s.withSeed (lcgNext s.seed)) x
  | _ => exact advance_writeReg_withConsole c _ _ s x

/-- The line of an instruction is what it appends to the console (R160, R161). -/
theorem runRoutine_console (c : Config) (i : Instr) (s : State) :
    (runRoutine c i s).console = s.console ++ Event.line c ⟨i, s⟩ :=
  congrArg State.console (runRoutine_withConsole c i s s.console)

end Sys2Proof.Machine

namespace Sys2Proof

open Sys2Proof.Machine

/-! ## What a step executes -/

/-- A step to a next state executes nothing and sets at most the status, or executes one instruction and is its routine
(R77). -/
theorem eventOf_of_stepWith_next {c : Config} {s t : State} (h : stepWith c s = .next t) :
    (eventOf c s = [] ∧ ∃ x, t = s.withStatus x) ∨ (∃ i, eventOf c s = [⟨i, s⟩] ∧ t = runRoutine c i s) := by
  obtain ⟨hs, rfl⟩ | ⟨hs, hf, rfl⟩ | ⟨hs, hf, rfl⟩ | ⟨w, r, hs, hf, hd, rfl⟩ | ⟨w, i, hs, hf, hd, hrun⟩ := cycle_next h
  · exact .inl ⟨by simp [eventOf, executed, hs], t.status, rfl⟩
  · exact .inl ⟨by simp [eventOf, executed, hs, hf], _, haltRun_eq s⟩
  · exact .inl ⟨by simp [eventOf, executed, hs, hf], _, raiseFetchFault_eq s⟩
  · exact .inl ⟨by simp [eventOf, executed, hs, hf, hd, Except.toOption], _, raiseDecodeFail_eq w s⟩
  · exact .inr ⟨i, by simp [eventOf, executed, hs, hf, hd, Except.toOption], (Host.Outcome.next.inj hrun).symm⟩

/-! ## The console along a run -/

/-- One step appends the lines of what it executes. -/
theorem console_of_stepWith_next {c : Config} {s t : State} (h : stepWith c s = .next t) :
    t.console = s.console ++ (eventOf c s).flatMap (Event.line c) := by
  obtain ⟨hev, x, rfl⟩ | ⟨i, hev, rfl⟩ := eventOf_of_stepWith_next h
  · rw [hev, List.flatMap_nil, List.append_nil, State.withStatus_console]
  · rw [hev, List.flatMap_singleton, runRoutine_console]

/-- A run appends the lines of what it executes, in order. -/
theorem Run.console_eq {c : Config} {s t : State} {tr : List Event} (h : Run c s tr t) :
    t.console = s.console ++ tr.flatMap (Event.line c) := by
  induction h with
  | stop s => exact (List.append_nil _).symm
  | step hstep _ ih => rw [ih, console_of_stepWith_next hstep, List.flatMap_append, List.append_assoc]

end Sys2Proof

/-! ## The obligations -/

namespace Sys2Proof.Proofs.Console

open Sys2Proof.Machine

/-- Settles O57: runs by induction, and one instruction's line is the same on every console. -/
theorem consoleIsTheLinesOfTheInspectsExecuted : Obligations.ConsoleIsTheLinesOfTheInspectsExecuted := by
  unfold Obligations.ConsoleIsTheLinesOfTheInspectsExecuted
  refine ⟨fun c s t tr h => h.console_eq, fun i s bytes => ?_⟩
  refine ⟨runRoutine config i s, Event.line config ⟨i, s⟩, exec_eq i s, runRoutine_console config i s, ?_⟩
  rw [exec_eq, runRoutine_withConsole]

end Sys2Proof.Proofs.Console

/-!
SUPPORT. The proofs about encoding and decode (R64, R65, R73, R81, R82, R43). The bridge is one lemma: re-encoding the
operands the decoder takes from a word with a descriptor's key clears that descriptor's ignored bits. Decode inverts
encode, so this lemma also says that a canonical word has no ignored bit set.
-/

namespace Sys2Proof

/-! ## A word as its fields, and the fields that hold operands -/

theorem eq_wordR_of_opcodeOf {w : Word} (h : opcodeOf w = 0#6) :
    w = wordR (rsOf w) (rtOf w) (rdOf w) (unusedOf w) (functOf w) := by
  unfold wordR
  rw [← h]
  apply BitVec.eq_of_getLsbD_eq
  intro k hk
  simp only [opcodeOf, rsOf, rtOf, rdOf, unusedOf, functOf, BitVec.getLsbD_append, BitVec.getLsbD_extractLsb']
  interval_cases k <;> simp

theorem eq_packI (w : Word) : w = packI (opcodeOf w) (rsOf w) (rtOf w) (immOf w) := by
  apply BitVec.eq_of_getLsbD_eq
  intro k hk
  simp only [packI, opcodeOf, rsOf, rtOf, immOf, BitVec.getLsbD_append, BitVec.getLsbD_extractLsb']
  interval_cases k <;> simp

section
variable (rs rt rd : Reg) (u : BitVec 5) (op fn : BitVec 6) (imm : Half)

/-- Two operands: rt and the unused field are ignored (R65). -/
theorem wordR_clear_rt : wordR rs rt rd u fn &&& ~~~0x001F07C0#32 = packR rs rd fn := by
  apply BitVec.eq_of_getLsbD_eq
  intro k hk
  simp only [wordR, packR, BitVec.getLsbD_and, BitVec.getLsbD_append]
  interval_cases k <;> simp

/-- One operand in rd: rs, rt and the unused field are ignored (R65). -/
theorem wordR_clear_rs_rt : wordR rs rt rd u fn &&& ~~~0x03FF07C0#32 = packR 0#5 rd fn := by
  apply BitVec.eq_of_getLsbD_eq
  intro k hk
  simp only [wordR, packR, BitVec.getLsbD_and, BitVec.getLsbD_append]
  interval_cases k <;> simp

/-- One operand in rs: rt, rd and the unused field are ignored (R65). -/
theorem wordR_clear_rt_rd : wordR rs rt rd u fn &&& ~~~0x001FFFC0#32 = packR rs 0#5 fn := by
  apply BitVec.eq_of_getLsbD_eq
  intro k hk
  simp only [wordR, packR, BitVec.getLsbD_and, BitVec.getLsbD_append]
  interval_cases k <;> simp

theorem packI_clear_rt : packI op rs rt imm &&& ~~~0x001F0000#32 = packI op rs 0#5 imm := by
  apply BitVec.eq_of_getLsbD_eq
  intro k hk
  simp only [packI, BitVec.getLsbD_and, BitVec.getLsbD_append]
  interval_cases k <;> simp

theorem packI_clear_rs : packI op rs rt imm &&& ~~~0x03E00000#32 = packI op 0#5 rt imm := by
  apply BitVec.eq_of_getLsbD_eq
  intro k hk
  simp only [packI, BitVec.getLsbD_and, BitVec.getLsbD_append]
  interval_cases k <;> simp

theorem packI_clear_imm : packI op rs rt imm &&& ~~~0x0000FFFF#32 = packI op rs rt 0#16 := by
  apply BitVec.eq_of_getLsbD_eq
  intro k hk
  simp only [packI, BitVec.getLsbD_and, BitVec.getLsbD_append]
  interval_cases k <;> simp

end

section
variable {w : Word} {op fn : BitVec 6}

theorem packR_rs_rd (hop : opcodeOf w = 0#6) (hfn : functOf w = fn) :
    packR (rsOf w) (rdOf w) fn = w &&& ~~~0x001F07C0#32 := by
  conv_rhs => rw [eq_wordR_of_opcodeOf hop, hfn, wordR_clear_rt]

theorem packR_rd (hop : opcodeOf w = 0#6) (hfn : functOf w = fn) :
    packR 0#5 (rdOf w) fn = w &&& ~~~0x03FF07C0#32 := by
  conv_rhs => rw [eq_wordR_of_opcodeOf hop, hfn, wordR_clear_rs_rt]

theorem packR_rs (hop : opcodeOf w = 0#6) (hfn : functOf w = fn) :
    packR (rsOf w) 0#5 fn = w &&& ~~~0x001FFFC0#32 := by
  conv_rhs => rw [eq_wordR_of_opcodeOf hop, hfn, wordR_clear_rt_rd]

theorem packI_rs (hop : opcodeOf w = op) : packI op (rsOf w) 0#5 (immOf w) = w &&& ~~~0x001F0000#32 := by
  conv_rhs => rw [eq_packI w, hop, packI_clear_rt]

/-- The I_FORMAT field that holds no operand is cleared, whichever field that is (R69). -/
theorem packTarget_operand (c : Config) (hop : opcodeOf w = op) :
    packTarget c op (iTarget c w) (immOf w) = w &&& ~~~iIgnored c := by
  conv_rhs => rw [eq_packI w, hop]
  unfold iIgnored packTarget iTarget
  cases c.iTargetField with
  | rt => exact (packI_clear_rs _ _ _ _).symm
  | rs => exact (packI_clear_rt _ _ _ _).symm

/-- `rng` ignores the immediate besides (R152). -/
theorem packTarget_rng (c : Config) (hop : opcodeOf w = op) :
    packTarget c op (iTarget c w) 0#16 = w &&& ~~~(iIgnored c ||| 0x0000FFFF#32) := by
  rw [BitVec.not_or, ← BitVec.and_assoc, ← packTarget_operand c hop]
  unfold packTarget
  cases c.iTargetField with
  | rt => exact (packI_clear_imm _ _ _ _).symm
  | rs => exact (packI_clear_imm _ _ _ _).symm

end

/-! ## Re-encoding and decoding again -/

/-- Re-encoding the operands of a word with a row's key clears that row's ignored bits (R82). -/
theorem encodeWith_operandsOf (c : Config) {w : Word} {m : Mnemonic}
    (h : keyMap (opcodeOf w) (functOf w) = .ok m) :
    encodeWith c (operandsOf c m w) = w &&& ~~~ignoredBits c m := by
  obtain ⟨d, hd, rfl, hop, hfn⟩ := keyMap_sound h
  have hrow : d ∈ catalogR ∨ d ∈ catalogI := List.mem_append.1 hd
  rcases hrow with hR | hI
  · simp only [catalogR, List.mem_cons, List.not_mem_nil, or_false] at hR
    rcases hR with rfl | rfl | rfl | rfl | rfl | rfl | rfl
    · exact packR_rs_rd hop (hfn _ rfl) -- move
    · exact packR_rs hop (hfn _ rfl) -- inspect
    · exact packR_rd hop (hfn _ rfl) -- zerohp
    · exact packR_rs_rd hop (hfn _ rfl) -- temppower
    · exact packR_rs_rd hop (hfn _ rfl) -- typeeff
    · exact packR_rd hop (hfn _ rfl) -- crit
    · exact packR_rs_rd hop (hfn _ rfl) -- ball
  · simp only [catalogI, List.mem_cons, List.not_mem_nil, or_false] at hI
    rcases hI with rfl | rfl | rfl | rfl | rfl | rfl | rfl | rfl | rfl | rfl
    · exact packI_rs hop -- catch
    · exact packTarget_operand c hop -- heal
    · exact packTarget_operand c hop -- settypep1
    · exact packTarget_operand c hop -- buff
    · exact packTarget_operand c hop -- debuff
    · exact packTarget_operand c hop -- setstatus
    · exact packTarget_operand c hop -- resetstatus
    · exact packTarget_rng c hop -- rng
    · exact packI_rs hop -- seti
    · exact packTarget_operand c hop -- settypep2

/-- The operands the decoder takes from a canonical word are the instruction's own. -/
theorem operandsOf_encodeWith (c : Config) (i : Instr) : operandsOf c i.mnemonic (encodeWith c i) = i := by
  cases i <;>
    simp [Instr.mnemonic, operandsOf, encodeWith, rsOf_packR, rdOf_packR, rsOf_packI, immOf_packI, immOf_packTarget,
      iTarget_packTarget]

/-- The key of a canonical word is its instruction's (R64, R81). -/
theorem keyMap_encodeWith (c : Config) (i : Instr) :
    keyMap (opcodeOf (encodeWith c i)) (functOf (encodeWith c i)) = .ok i.mnemonic :=
  Laws.EncodedKey.holds i c

theorem bitVec_and_eq_zero_iff {n : Nat} (x y : BitVec n) : x &&& y = 0#n ↔ x &&& ~~~y = x := by
  simp only [BitVec.eq_of_getLsbD_eq_iff, BitVec.getLsbD_and, BitVec.getLsbD_not, BitVec.getLsbD_zero]
  refine forall₂_congr fun k hk => ?_
  cases x.getLsbD k <;> simp [hk]

/-- A canonical word has no ignored bit set: encoding it again changes nothing (R81). -/
theorem encodeWith_and_ignoredBits (c : Config) (i : Instr) : encodeWith c i &&& ignoredBits c i.mnemonic = 0#32 := by
  rw [bitVec_and_eq_zero_iff, ← encodeWith_operandsOf c (keyMap_encodeWith c i), operandsOf_encodeWith]

/-! ## What the decoder answers -/

/-- A word decodes exactly where its key has a row and, under the policy `check`, no ignored bit is set (R64, R65). -/
theorem decodeWith_eq_ok_iff (c : Config) (w : Word) (i : Instr) :
    decodeWith c w = .ok i ↔
      keyMap (opcodeOf w) (functOf w) = .ok i.mnemonic ∧ operandsOf c i.mnemonic w = i ∧
        (c.unusedFieldPolicy = .check → w &&& ignoredBits c i.mnemonic = 0#32) := by
  unfold decodeWith
  cases hkey : keyMap (opcodeOf w) (functOf w) with
  | error r => simp
  | ok m =>
    have hname : operandsOf c m w = i → m = i.mnemonic := by
      rintro rfl
      exact (mnemonic_operandsOf c m w).symm
    cases hc : c.unusedFieldPolicy with
    | ignore => grind
    | check => grind

/-- Decoding recovers the instruction from its canonical word. -/
theorem decodeWith_encodeWith (c : Config) (i : Instr) : decodeWith c (encodeWith c i) = .ok i :=
  (decodeWith_eq_ok_iff c _ i).2
    ⟨keyMap_encodeWith c i, operandsOf_encodeWith c i, fun _ => encodeWith_and_ignoredBits c i⟩

theorem encodeWith_injective (c : Config) : Function.Injective (encodeWith c) := by
  intro i j h
  have hdec : (Except.ok i : Except Reject Instr) = .ok j := by
    rw [← decodeWith_encodeWith c i, ← decodeWith_encodeWith c j, h]
  exact Except.ok.inj hdec

/-- The canonical word of what a word decodes to is the word with its ignored bits cleared (R82). -/
theorem encodeWith_of_decodeWith {c : Config} {w : Word} {i : Instr} (h : decodeWith c w = .ok i) :
    encodeWith c i = w &&& ~~~ignoredBits c i.mnemonic := by
  obtain ⟨hkey, hops, -⟩ := (decodeWith_eq_ok_iff c w i).1 h
  rw [← encodeWith_operandsOf c hkey, hops]

/-! ## Ignored bits and the key -/

/-- A descriptor's mask has none of its ignored bits (R64, R65). -/
theorem mask_and_ignoredBits (c : Config) {d : Descriptor} (hd : d ∈ catalog) :
    d.mask &&& ~~~ignoredBits c d.mnemonic = d.mask := by
  have hcases : ∀ d ∈ catalog, d.mask &&& ~~~ignoredBits c d.mnemonic = d.mask := by
    cases hc : c.iTargetField <;> simp [catalog, catalogR, catalogI, Descriptor.mask, ignoredBits, iIgnored, hc]
  exact hcases d hd

/-- Two words that agree outside a row's ignored bits have that row's key together. -/
theorem keyMap_congr_of_ignoredBits {c : Config} {w v : Word} {m : Mnemonic}
    (h : w &&& ~~~ignoredBits c m = v &&& ~~~ignoredBits c m) (hw : keyMap (opcodeOf w) (functOf w) = .ok m) :
    keyMap (opcodeOf v) (functOf v) = .ok m := by
  obtain ⟨d, hd, rfl, hkey⟩ := keyMap_sound hw
  refine keyMap_complete hd ((and_mask_eq_pattern_iff d v).1 ?_)
  calc v &&& d.mask
    _ = (v &&& ~~~ignoredBits c d.mnemonic) &&& d.mask := by
      rw [BitVec.and_assoc, BitVec.and_comm (~~~_), mask_and_ignoredBits c hd]
    _ = (w &&& ~~~ignoredBits c d.mnemonic) &&& d.mask := by rw [h]
    _ = w &&& d.mask := by rw [BitVec.and_assoc, BitVec.and_comm (~~~_), mask_and_ignoredBits c hd]
    _ = d.pattern := (and_mask_eq_pattern_iff d w).2 hkey

theorem bitVec_xor_and_eq_zero_iff {n : Nat} (x y z : BitVec n) : (x ^^^ y) &&& z = 0#n ↔ x &&& z = y &&& z := by
  simp only [BitVec.eq_of_getLsbD_eq_iff, BitVec.getLsbD_and, BitVec.getLsbD_xor, BitVec.getLsbD_zero]
  refine forall₂_congr fun k _ => ?_
  cases x.getLsbD k <;> cases y.getLsbD k <;> simp

/-! ## The words without a row -/

theorem keyMap_eq_error_iff (op fn : BitVec 6) :
    (∃ r, keyMap op fn = .error r) ↔ ¬∃ d ∈ catalog, d.HasKey op fn := by
  constructor
  · rintro ⟨r, hr⟩ ⟨d, hd, hkey⟩
    rw [keyMap_complete hd hkey] at hr
    cases hr
  · intro hnone
    cases hkey : keyMap op fn with
    | error r => exact ⟨r, rfl⟩
    | ok m =>
      obtain ⟨d, hd, -, hdkey⟩ := keyMap_sound hkey
      exact absurd ⟨d, hd, hdkey⟩ hnone

/-- The keys of the rows: eleven opcodes, of which 000000 is split by seven functs (R71 to R73). -/
theorem exists_row_hasKey_iff (op fn : BitVec 6) :
    (∃ d ∈ catalog, d.HasKey op fn) ↔
      op ∈ [0x00#6, 0x04#6, 0x08#6, 0x09#6, 0x0A#6, 0x0B#6, 0x0C#6, 0x0D#6, 0x0E#6, 0x0F#6, 0x29#6] ∧
        (op = 0x00#6 → fn ∈ [0x01#6, 0x02#6, 0x03#6, 0x04#6, 0x05#6, 0x06#6, 0x07#6]) := by
  have hR : (∃ d ∈ catalogR, d.HasKey op fn) ↔
      op = 0x00#6 ∧ fn ∈ [0x01#6, 0x02#6, 0x03#6, 0x04#6, 0x05#6, 0x06#6, 0x07#6] := by
    simp [catalogR, Descriptor.HasKey, ← and_or_left]
  have hI : (∃ d ∈ catalogI, d.HasKey op fn) ↔
      op ∈ [0x04#6, 0x08#6, 0x09#6, 0x0A#6, 0x0B#6, 0x0C#6, 0x0D#6, 0x0E#6, 0x0F#6, 0x29#6] := by
    simp [catalogI, Descriptor.HasKey]
  simp only [catalog, List.mem_append, or_and_right, exists_or, hR, hI, List.mem_cons (b := 0x00#6)]
  by_cases hop : op = 0x00#6
  · simp [hop]
  · simp [hop]

theorem decode_eq_error_iff (w : Word) :
    (∃ r, decode w = .error r) ↔ ∃ r, keyMap (opcodeOf w) (functOf w) = .error r := by
  rw [decode_eq]
  cases keyMap (opcodeOf w) (functOf w) <;> simp [Except.map]

/-! ## Bytes -/

/-- Four bytes that make a word decode as the word (R43). -/
theorem decodeBytes_bytesOfWord_append (c : Config) (w : Word) (rest : List Byte) :
    decodeBytes c (bytesOfWord c.imemByteOrder w ++ rest) = (decodeWith c w).map fun i => (i, rest) := by
  unfold bytesOfWord
  simp only [List.cons_append, List.nil_append, decodeBytes, wordOfBytes_bytesOfWord]
  cases decodeWith c w <;> rfl

theorem decodeBytes_of_length_lt (c : Config) {bs : List Byte} (h : bs.length < 4) :
    decodeBytes c bs = .error .truncated := by
  unfold decodeBytes
  split
  · simp only [List.length_cons] at h
    omega
  · rfl

/-- The words of the bytes of a list of words (R43). -/
theorem wordsOfBytes_flatMap_bytesOfWord (o : ByteOrder) (ws : List Word) :
    wordsOfBytes o (ws.flatMap (bytesOfWord o)) = ws := by
  induction ws with
  | nil => rfl
  | cons w ws ih =>
    simp only [List.flatMap_cons, bytesOfWord, List.cons_append, List.nil_append, wordsOfBytes,
      wordOfBytes_bytesOfWord] at ih ⊢
    rw [ih]

end Sys2Proof

/-! ## The obligations -/

namespace Sys2Proof.Proofs.Encoding

/-- Settles O1: the canonical word has its instruction's key and operands, and no ignored bit set for `check` to
find. -/
theorem decodeInvertsEncode : Obligations.DecodeInvertsEncode := by
  unfold Obligations.DecodeInvertsEncode
  exact decodeWith_encodeWith

/-- Settles O2: the operands of the decoded instruction are the word's own fields. -/
theorem reencodingClearsIgnoredBits : Obligations.ReencodingClearsIgnoredBits := by
  unfold Obligations.ReencodingClearsIgnoredBits
  exact fun c w i h => encodeWith_of_decodeWith h

/-- Settles O4: a word is rejected where its key is no row's, and the rows' keys are the eleven opcodes and seven
functs. -/
theorem wordsWithoutRowAreRejected : Obligations.WordsWithoutRowAreRejected := by
  unfold Obligations.WordsWithoutRowAreRejected
  intro w
  rw [decode_eq_error_iff, keyMap_eq_error_iff, exists_row_hasKey_iff, not_and_or, Classical.not_imp]
  rfl

/-- Settles O5: both words re-encode to the same canonical word, and encoding is injective. -/
theorem ignoredBitsDoNotChangeDecoding : Obligations.IgnoredBitsDoNotChangeDecoding := by
  unfold Obligations.IgnoredBitsDoNotChangeDecoding
  intro w v i hw hdiff
  have hsame := (bitVec_xor_and_eq_zero_iff w v _).1 hdiff
  obtain ⟨hkey, -, -⟩ := (decodeWith_eq_ok_iff config w i).1 hw
  have hkeyV := keyMap_congr_of_ignoredBits hsame hkey
  refine (decodeWith_eq_ok_iff config v i).2 ⟨hkeyV, encodeWith_injective config ?_, nofun⟩
  rw [encodeWith_operandsOf config hkeyV, ← hsame, encodeWith_of_decodeWith hw]

/-- Settles O6: what `check` accepts has no ignored bit to clear. -/
theorem checkPolicyAcceptsCanonicalWordsOnly : Obligations.CheckPolicyAcceptsCanonicalWordsOnly := by
  unfold Obligations.CheckPolicyAcceptsCanonicalWordsOnly
  intro c hcheck w i
  constructor
  · intro h
    obtain ⟨-, -, hclear⟩ := (decodeWith_eq_ok_iff c w i).1 h
    rw [encodeWith_of_decodeWith h, (bitVec_and_eq_zero_iff _ _).1 (hclear hcheck)]
  · rintro rfl
    exact decodeWith_encodeWith c i

/-- Settles O8: the bytes of a word make the word in either order, and the default order is little-endian. -/
theorem bytesDecodeAsTheirWord : Obligations.BytesDecodeAsTheirWord := by
  unfold Obligations.BytesDecodeAsTheirWord
  exact ⟨decodeBytes_bytesOfWord_append, fun _ _ _ _ => rfl, fun c _ h => decodeBytes_of_length_lt c h⟩

/-- Settles O7: the decoder evaluated on the ten words. -/
theorem specWordsDecode : Obligations.SpecWordsDecode := by
  unfold Obligations.SpecWordsDecode
  decide

end Sys2Proof.Proofs.Encoding

/-!
SUPPORT. What a routine does to each part of the state, for any parameters and any instruction (10_state.md R24, R30;
44_rng.md R151; 43_branch.md R140). The rules about all instructions follow from these lemmas without another split
over the 17.
-/

namespace Sys2Proof.Machine

/-! ## The three shapes of a routine -/

/-- The value an instruction leaves in the register it writes (R101 to R118, R131, R132, R152); `inspect` and `catch`
write none. -/
def writtenValue (c : Config) (i : Instr) (s : State) : Word :=
  match i with
  | .move a b => sub (readReg c s a) (readReg c s b)
  | .heal a imm => add (readReg c s a) (sext16 imm)
  | .settypep1 _ imm => sext16 imm
  | .settypep2 _ imm => sext16 imm
  | .buff a imm => add (readReg c s a) (sext16 imm)
  | .debuff a imm => sub (readReg c s a) (sext16 imm)
  | .inspect _ => 0#32
  | .zerohp _ => 0#32
  | .setstatus a imm => setBits (readReg c s a) (sext16 imm)
  | .resetstatus a imm => clearBits (readReg c s a) (sext16 imm)
  | .temppower _ b => readReg c s b
  | .typeeff a b => effectivePower (readReg c s attackerSlot) (readReg c s b) (readReg c s a)
  | .crit a => mul2 (readReg c s a)
  | .ball a b => add (readReg c s a) (itemBonus (readReg c s b))
  | .catchBr _ _ => 0#32
  | .rng _ => lcgOutput (lcgNext s.seed)
  | .seti _ imm => sext16 imm

/-- The seed an instruction leaves: `rng` steps it, no other instruction changes it (R27, R151). -/
def seedAfter (i : Instr) (s : State) : Word :=
  if i.mnemonic = .rng then lcgNext s.seed else s.seed

/-- An instruction that writes a register writes that one, and the seed, and advances the pc. -/
theorem runRoutine_of_written {i : Instr} {a : Reg} (h : regWritten i = some a) (c : Config) (s : State) :
    runRoutine c i s = advance (writeReg c a (writtenValue c i s) (s.withSeed (seedAfter i s))) := by
  cases i with
  | inspect _ | catchBr _ _ => cases h
  | _ => cases h; rfl

theorem branchRequest_catchBr (c : Config) (a : Reg) (off : Half) (s : State) :
    branchRequest c (.catchBr a off) s = if branchTaken c a s then some off else none := rfl

/-- `catch` changes the pc alone: to the resolver's target where it requests the branch, else to pc + 4 (R140, R141). -/
theorem runRoutine_catchBr (c : Config) (a : Reg) (off : Half) (s : State) :
    runRoutine c (.catchBr a off) s =
      s.withPc ((branchRequest c (.catchBr a off) s).elim (s.pc + 4#32) (c.resolve s.pc)) := by
  change routineCatch c a off s = _
  rw [branchRequest_catchBr, routineCatch]
  cases branchTaken c a s <;> rfl

/-- Every instruction writes a register, or is `inspect`, or is `catch` (R24). -/
theorem regWritten_cases (i : Instr) :
    (∃ a, regWritten i = some a) ∨ (∃ a, i = .inspect a) ∨ (∃ a off, i = .catchBr a off) := by
  cases i with
  | inspect a => exact .inr (.inl ⟨a, rfl⟩)
  | catchBr a off => exact .inr (.inr ⟨a, off, rfl⟩)
  | _ => exact .inl ⟨_, rfl⟩

theorem branchRequest_of_written {i : Instr} {a : Reg} (h : regWritten i = some a) (c : Config) (s : State) :
    branchRequest c i s = none := by
  cases i with
  | catchBr _ _ => cases h
  | _ => rfl

/-! ## What a routine does to each field -/

section
variable (c : Config) (i : Instr) (s : State)

/-- A routine changes registers, seed, console and pc at most (R24). -/
theorem runRoutine_eq :
    runRoutine c i s = (((s.withRegs (runRoutine c i s).regs).withSeed (runRoutine c i s).seed).withConsole
      (runRoutine c i s).console).withPc (runRoutine c i s).pc := by
  obtain ⟨a, h⟩ | ⟨a, rfl⟩ | ⟨a, off, rfl⟩ := regWritten_cases i
  · rw [runRoutine_of_written h, writeReg_eq]
    rfl
  · rfl
  · rw [runRoutine_catchBr]
    rfl

@[simp] theorem runRoutine_status : (runRoutine c i s).status = s.status := by rw [runRoutine_eq]; rfl
@[simp] theorem runRoutine_progBase : (runRoutine c i s).progBase = s.progBase := by rw [runRoutine_eq]; rfl
@[simp] theorem runRoutine_progLen : (runRoutine c i s).progLen = s.progLen := by rw [runRoutine_eq]; rfl
@[simp] theorem runRoutine_imem : (runRoutine c i s).imem = s.imem := by rw [runRoutine_eq]; rfl

theorem runRoutine_seed : (runRoutine c i s).seed = seedAfter i s := by
  obtain ⟨a, h⟩ | ⟨a, rfl⟩ | ⟨a, off, rfl⟩ := regWritten_cases i
  · simp [runRoutine_of_written h]
  · rfl
  · simp [runRoutine_catchBr, seedAfter, Instr.mnemonic]

/-- The pc goes where the resolver says if a branch is requested, else to pc + 4 (R30, R140). -/
theorem runRoutine_pc : (runRoutine c i s).pc = (branchRequest c i s).elim (s.pc + 4#32) (c.resolve s.pc) := by
  obtain ⟨a, h⟩ | ⟨a, rfl⟩ | ⟨a, off, rfl⟩ := regWritten_cases i
  · simp [runRoutine_of_written h, branchRequest_of_written h]
  · rfl
  · rw [runRoutine_catchBr, State.withPc_pc]

end

/-! ## What a routine does to the registers -/

theorem readReg_runRoutine_of_ne (c : Config) {i : Instr} {r : Reg} (h : regWritten i ≠ some r) (s : State) :
    readReg c (runRoutine c i s) r = readReg c s r := by
  obtain ⟨a, ha⟩ | ⟨a, rfl⟩ | ⟨a, off, rfl⟩ := regWritten_cases i
  · have hr : r ≠ a := by
      rintro rfl
      exact h ha
    rw [runRoutine_of_written ha, readReg_advance, readReg_writeReg_ne c hr, readReg_withSeed]
  · rfl
  · rw [runRoutine_catchBr, readReg_withPc]

theorem sameRegs_runRoutine {i : Instr} (h : regWritten i = none) (s : State) : SameRegs s (runRoutine config i s) := by
  intro r
  have hne : regWritten i ≠ some r := by
    rw [h]
    exact (Option.some_ne_none r).symm
  exact readReg_runRoutine_of_ne config hne s

/-- On the running machine the register written holds the value written (R21). -/
theorem readReg_runRoutine_written {i : Instr} {a : Reg} (h : regWritten i = some a) (s : State) :
    readReg config (runRoutine config i s) a = writtenValue config i s := by
  rw [runRoutine_of_written h, readReg_advance, readReg_writeReg_self]

theorem sameProgram_runRoutine (c : Config) (i : Instr) (s : State) : SameProgram s (runRoutine c i s) :=
  ⟨runRoutine_progBase c i s, runRoutine_progLen c i s, runRoutine_imem c i s, fun _ => by rw [runRoutine_imem]⟩

/-- Only `inspect` has a line (R160). -/
theorem event_line_of_ne_inspect {i : Instr} (h : i.mnemonic ≠ .inspect) (c : Config) (s : State) :
    Event.line c ⟨i, s⟩ = [] := by
  cases i with
  | inspect _ => exact absurd rfl h
  | _ => rfl

theorem runRoutine_console_of_ne_inspect {i : Instr} (h : i.mnemonic ≠ .inspect) (c : Config) (s : State) :
    (runRoutine c i s).console = s.console := by
  rw [runRoutine_console, event_line_of_ne_inspect h, List.append_nil]

/-! ## What a routine depends on -/

section
variable {c : Config} {i : Instr} {s u : State} (hregs : ∀ r ∈ regsRead i, readReg c s r = readReg c u r)
include hregs

/-- The value written depends on the registers the table says are read, and on the seed for `rng` (R24). -/
theorem writtenValue_congr (hseed : i.mnemonic = .rng → s.seed = u.seed) :
    writtenValue c i s = writtenValue c i u := by
  cases i with
  | rng a => rw [writtenValue, writtenValue, hseed rfl]
  | _ => simp_all [regsRead, writtenValue]

theorem branchRequest_congr : branchRequest c i s = branchRequest c i u := by
  cases i with
  | catchBr a off =>
    have htaken : branchTaken c a s = branchTaken c a u := by simp_all [regsRead, branchTaken]
    rw [branchRequest_catchBr, branchRequest_catchBr, htaken]
  | _ => rfl

theorem event_line_congr : Event.line c ⟨i, s⟩ = Event.line c ⟨i, u⟩ := by
  cases i with
  | inspect a => simp_all [regsRead, Event.line]
  | _ => rfl

end

end Sys2Proof.Machine

/-!
SUPPORT. The proofs of the rules about all instructions (R24, R29, R30) and of the parameters of the branch and of
register 0 (R21, R143).
-/

namespace Sys2Proof.Machine

/-! ## The pc and the resolver -/

/-- No branch is requested exactly where the instruction is no `catch` that is taken (R140). -/
theorem branchRequest_eq_none_iff (c : Config) (i : Instr) (s : State) :
    branchRequest c i s = none ↔ ∀ a off, i = .catchBr a off → branchTaken c a s = false := by
  cases i with
  | catchBr a off =>
    rw [branchRequest_catchBr]
    cases h : branchTaken c a s <;> simp [h]
  | _ => exact ⟨fun _ _ _ => nofun, fun _ => rfl⟩

theorem branchTaken_iff (c : Config) (a : Reg) (s : State) :
    branchTaken c a s = true ↔ signed (readReg c s a) > signed (readReg c s 9#5) :=
  decide_eq_true_iff

theorem branchTaken_eq_false_iff (c : Config) (a : Reg) (s : State) :
    branchTaken c a s = false ↔ signed (readReg c s a) ≤ signed (readReg c s 9#5) := by
  rw [← Bool.not_eq_true, branchTaken_iff, gt_iff_lt, Int.not_lt]

theorem toInt_eq_or (x : Word) : x.toInt = x.toNat ∨ x.toInt = (x.toNat : Int) - 2 ^ 32 := by
  rw [BitVec.toInt_eq_toNat_cond]
  split
  · exact .inl rfl
  · exact .inr rfl

/-- The target as an integer: pc + 4 plus four times the signed operand, wrapping (R143, D10). -/
theorem resolveWordOffset_toNat (pc : Word) (off : Half) :
    ((Config.resolveWordOffset pc off).toNat : Int) = ((pc.toNat : Int) + 4 + 4 * off.toInt) % 2 ^ 32 := by
  have hext : (off.signExtend 32).toInt = off.toInt := BitVec.toInt_signExtend_of_le (by decide)
  unfold Config.resolveWordOffset
  rw [BitVec.toNat_add, BitVec.toNat_add, BitVec.toNat_shiftLeft, Nat.shiftLeft_eq, ← hext]
  obtain h | h := toInt_eq_or (off.signExtend 32) <;> rw [h]
  all_goals
    have h4 : (4#32).toNat = 4 := rfl
    omega

theorem config_resolve (pc : Word) (off : Half) : config.resolve pc off = Config.resolveWordOffset pc off := rfl

theorem resolverAligned_config : ResolverAligned config := by
  intro pc off hpc
  have htarget := resolveWordOffset_toNat pc off
  rw [config_resolve]
  omega

/-- The operand 0xFFFF is -1, which takes the branch back to itself (R143). -/
theorem resolveWordOffset_neg_one (pc : Word) : Config.resolveWordOffset pc 0xFFFF#16 = pc := by
  have hback : (4#32 : Word) + ((0xFFFF#16 : Half).signExtend 32 <<< 2) = 0#32 := by decide
  rw [Config.resolveWordOffset, BitVec.add_assoc, hback, BitVec.add_zero]

theorem resolveWordOffset_zero (pc : Word) : Config.resolveWordOffset pc 0#16 = pc + 4#32 := by
  have hon : ((0#16 : Half).signExtend 32 <<< 2) = 0#32 := by decide
  rw [Config.resolveWordOffset, hon, BitVec.add_zero]

/-! ## Register 0 hardwired to zero -/

section
variable {c : Config} (hzero : c.reg0HardwiredZero = true)
include hzero

theorem readReg_zero_of_hardwired (s : State) : readReg c s 0#5 = 0#32 :=
  if_pos ⟨hzero, rfl⟩

/-- No write reaches the cell of a hardwired register 0 (D13). -/
theorem writeReg_regs_zero_of_hardwired (r : Reg) (v : Word) (s : State) : (writeReg c r v s).regs[0] = s.regs[0] := by
  unfold writeReg
  split
  · rfl
  · next hr =>
    have hne : r.toNat ≠ 0 := fun h => hr ⟨hzero, BitVec.eq_of_toNat_eq h⟩
    exact Vector.getElem_set_ne r.isLt (by decide) hne

theorem runRoutine_regs_zero_of_hardwired (i : Instr) (s : State) : (runRoutine c i s).regs[0] = s.regs[0] := by
  obtain ⟨a, h⟩ | ⟨a, rfl⟩ | ⟨a, off, rfl⟩ := regWritten_cases i
  · rw [runRoutine_of_written h]
    exact writeReg_regs_zero_of_hardwired hzero _ _ _
  · rfl
  · rw [runRoutine_catchBr, State.withPc_regs]

end

end Sys2Proof.Machine

/-! ## The obligations -/

namespace Sys2Proof.Proofs.AllInstructions

open Sys2Proof.Machine

/-- Settles O33: each field of the state after a routine. -/
theorem everyInstructionKeepsItsFrame : Obligations.EveryInstructionKeepsItsFrame := by
  unfold Obligations.EveryInstructionKeepsItsFrame
  intro i s
  refine ⟨_, exec_eq i s, fun r hr => readReg_runRoutine_of_ne config hr s, fun hi => ?_,
    fun hi => runRoutine_console_of_ne_inspect hi config s, runRoutine_status config i s,
    sameProgram_runRoutine config i s⟩
  rw [runRoutine_seed, seedAfter, if_neg hi]

/-- Settles O34: value, branch request and line depend only on the registers read. -/
theorem resultsDependOnlyOnRegistersRead : Obligations.ResultsDependOnlyOnRegistersRead := by
  unfold Obligations.ResultsDependOnlyOnRegistersRead
  intro i s u hregs hseed
  refine ⟨_, _, exec_eq i s, exec_eq i u, fun r hr => ?_, fun hi => ?_, fun hpc => ?_, Event.line config ⟨i, s⟩, ?_, ?_⟩
  · rw [readReg_runRoutine_written hr, readReg_runRoutine_written hr, writtenValue_congr hregs hseed]
  · rw [runRoutine_seed, runRoutine_seed, seedAfter, seedAfter, hseed hi]
  · rw [runRoutine_pc, runRoutine_pc, branchRequest_congr hregs, hpc]
  · exact runRoutine_console config i s
  · rw [runRoutine_console, event_line_congr hregs]

/-- Settles O35: the pc is the resolver's where a branch is requested, and only a taken `catch` requests one. -/
theorem pcAdvancesUnlessCatchIsTaken : Obligations.PcAdvancesUnlessCatchIsTaken := by
  unfold Obligations.PcAdvancesUnlessCatchIsTaken
  intro i s
  refine ⟨_, exec_eq i s, fun hnot => ?_, fun a off hi htaken => ?_⟩
  · have hnone : branchRequest config i s = none := by
      refine (branchRequest_eq_none_iff config i s).2 fun a off hi => ?_
      exact (branchTaken_eq_false_iff config a s).2 (Int.not_lt.1 (hnot a off hi))
    rw [runRoutine_pc, hnone]
    rfl
  · subst hi
    rw [runRoutine_pc, branchRequest_catchBr, (branchTaken_iff config a s).2 htaken]
    exact resolveWordOffset_toNat s.pc off

/-- Settles O37: for any parameters the pc is the resolver's where `catch` is taken. -/
theorem takenBranchGoesWhereTheResolverSays : Obligations.TakenBranchGoesWhereTheResolverSays := by
  unfold Obligations.TakenBranchGoesWhereTheResolverSays
  refine ⟨fun c a off s => ⟨fun htaken => ?_, fun hnot => ?_⟩, fun pc => ?_, resolverAligned_config⟩
  · have hreq : branchTaken c a s = true := htaken
    rw [runRoutine_pc, branchRequest_catchBr, hreq]
    rfl
  · have hreq : branchTaken c a s = false := hnot
    rw [runRoutine_pc, branchRequest_catchBr, hreq]
    rfl
  · exact ⟨resolveWordOffset_zero pc, resolveWordOffset_neg_one pc⟩

/-- Settles O38: a hardwired register 0 reads zero and loses every write; another one is an ordinary register. -/
theorem register0FollowsItsParameter : Obligations.Register0FollowsItsParameter := by
  unfold Obligations.Register0FollowsItsParameter
  refine fun c s => ⟨fun hzero i => ?_, fun hzero v => ?_⟩
  · exact ⟨readReg_zero_of_hardwired hzero _, runRoutine_regs_zero_of_hardwired hzero i s⟩
  · rw [readReg_writeReg, if_pos ⟨rfl, by simp [hzero]⟩]

end Sys2Proof.Proofs.AllInstructions

/-!
SUPPORT. The proofs about steps and runs: what a run keeps (R51), the seed along a run (R151), and the invariant of
R29, R33 and R41. A property of one step is a case split on what a step can be; a property of a run is its induction.
-/

namespace Sys2Proof

open Sys2Proof.Machine

/-! ## The program along a run -/

theorem SameProgram.refl (s : State) : SameProgram s s := ⟨rfl, rfl, rfl, fun _ => rfl⟩

theorem SameProgram.trans {s t u : State} (hst : SameProgram s t) (htu : SameProgram t u) : SameProgram s u := by
  obtain ⟨hbase, hlen, himem, hbyte⟩ := hst
  obtain ⟨hbase', hlen', himem', hbyte'⟩ := htu
  exact ⟨hbase'.trans hbase, hlen'.trans hlen, himem'.trans himem, fun a => (hbyte' a).trans (hbyte a)⟩

theorem sameProgram_of_stepWith_next {c : Config} {s t : State} (h : stepWith c s = .next t) : SameProgram s t := by
  obtain ⟨-, x, rfl⟩ | ⟨i, -, rfl⟩ := eventOf_of_stepWith_next h
  · exact SameProgram.refl s
  · exact sameProgram_runRoutine c i s

theorem Run.sameProgram {c : Config} {s t : State} {tr : List Event} (h : Run c s tr t) : SameProgram s t := by
  induction h with
  | stop s => exact SameProgram.refl s
  | step hstep _ ih => exact (sameProgram_of_stepWith_next hstep).trans ih

/-! ## The seed along a run -/

theorem event_isRng_iff (e : Event) : e.isRng = true ↔ e.instr.mnemonic = .rng := beq_iff_eq

/-- One step iterates the LCG once for each `rng` it executes: once or not at all. -/
theorem seed_of_stepWith_next {c : Config} {s t : State} (h : stepWith c s = .next t) :
    t.seed = lcgNext^[(eventOf c s).countP Event.isRng] s.seed := by
  obtain ⟨hev, x, rfl⟩ | ⟨i, hev, rfl⟩ := eventOf_of_stepWith_next h
  · rw [hev]
    rfl
  · rw [hev, runRoutine_seed, seedAfter, List.countP_singleton]
    by_cases hi : i.mnemonic = .rng
    · rw [if_pos hi, if_pos ((event_isRng_iff _).2 hi)]
      rfl
    · rw [if_neg hi, if_neg (mt (event_isRng_iff _).1 hi)]
      rfl

theorem iterate_seed_append (tr tr' : List Event) (x : Word) :
    lcgNext^[(tr ++ tr').countP Event.isRng] x =
      lcgNext^[tr'.countP Event.isRng] (lcgNext^[tr.countP Event.isRng] x) := by
  rw [List.countP_append, Nat.add_comm, Function.iterate_add_apply]

theorem Run.seed_eq {c : Config} {s t : State} {tr : List Event} (h : Run c s tr t) :
    t.seed = lcgNext^[tr.countP Event.isRng] s.seed := by
  induction h with
  | stop s => rfl
  | step hstep _ ih => rw [ih, iterate_seed_append, ← seed_of_stepWith_next hstep]

/-- A step executes at most one instruction, in the state it starts from. -/
theorem eventOf_eq_nil_or (c : Config) (s : State) : eventOf c s = [] ∨ ∃ i, eventOf c s = [⟨i, s⟩] := by
  unfold eventOf
  cases executed c s with
  | none => exact .inl rfl
  | some i => exact .inr ⟨i, rfl⟩

/-- What a run does before one of its events is a run of its own, which ends where the event is executed. -/
theorem Run.before_event {c : Config} {s t : State} {tr : List Event} (h : Run c s tr t) :
    ∀ pre e post, tr = pre ++ e :: post → Run c s pre e.before := by
  induction h with
  | stop s => simp
  | @step s t u tr hstep rest ih =>
    intro pre e post htr
    obtain hev | ⟨i, hev⟩ := eventOf_eq_nil_or c s
    · rw [hev] at htr
      have hrun := Run.step hstep (ih pre e post htr)
      rwa [hev] at hrun
    · rw [hev] at htr
      cases pre with
      | nil =>
        obtain ⟨rfl, -⟩ := List.cons.inj htr
        exact .stop s
      | cons e' pre =>
        obtain ⟨rfl, htail⟩ := List.cons.inj htr
        have hrun := Run.step hstep (ih pre e post htail)
        rwa [hev] at hrun

/-! ## The LCG in each arithmetic -/

theorem lcgNext_getLsbD_31 (s : Word) : (lcgNext s).getLsbD 31 = false := by
  have hlt : (lcgNext s).toNat < 2 ^ 31 := by
    rw [lcgNext_toNat]
    exact Nat.mod_lt _ (by decide)
  exact Nat.testBit_lt_two_pow hlt

/-- No step sets the seed's bit 31 (R27). -/
theorem seed_bit31_of_stepWith_next {c : Config} {s t : State} (hbit : s.seed.getLsbD 31 = false)
    (h : stepWith c s = .next t) : t.seed.getLsbD 31 = false := by
  obtain ⟨-, x, rfl⟩ | ⟨i, -, rfl⟩ := eventOf_of_stepWith_next h
  · exact hbit
  · rw [runRoutine_seed, seedAfter]
    split
    · exact lcgNext_getLsbD_31 _
    · exact hbit

/-! ## The running machine's step -/

/-- The running machine is the parametric one at the defaults (R7). -/
theorem step_eq_stepWith (s : State) : step s = stepWith config s := by
  have hrun : exec = fun i t => .next (runRoutine config i t) := funext₂ exec_eq
  rw [step, stepWith, hrun]

/-! ## The invariant -/

theorem fetch_eq_endOfProgram_iff {c : Config} {s : State} :
    fetch c s = .endOfProgram ↔ s.pc.toNat = s.progEnd := by
  obtain ⟨he, hf⟩ | ⟨he, -, hf⟩ | ⟨he, -, hf⟩ := fetch_cases c s <;> simp [he, hf]

/-- What the invariant says of the program passes to a state with the same one; pc and status are to be shown anew. -/
theorem StateWf.of_sameProgram {c : Config} {s t : State} (hs : StateWf c s) (hprog : SameProgram s t)
    (hpc : t.pc.toNat % 4 = 0) (hstatus : StatusTrue c t) : StateWf c t := by
  obtain ⟨hbase, hlen, himem, -⟩ := hprog
  have hend : t.progEnd = s.progEnd := by rw [State.progEnd, State.progEnd, hbase, hlen]
  exact {
    canonical := by rw [himem]; exact hs.canonical
    inside := by rw [himem, hbase, hend]; exact hs.inside
    baseAligned := by rw [hbase]; exact hs.baseAligned
    fits := by rw [hend]; exact hs.fits
    pcAligned := hpc
    status := hstatus }

theorem statusTrue_of_running {c : Config} {s : State} (h : s.status = .running) : StatusTrue c s := by
  unfold StatusTrue
  rw [h]
  trivial

theorem runRoutine_pc_aligned {c : Config} (hc : ResolverAligned c) (i : Instr) {s : State}
    (hpc : s.pc.toNat % 4 = 0) : (runRoutine c i s).pc.toNat % 4 = 0 := by
  rw [runRoutine_pc]
  cases branchRequest c i s with
  | some off => exact hc s.pc off hpc
  | none =>
    change (s.pc + 4#32).toNat % 4 = 0
    rw [BitVec.toNat_add, BitVec.toNat_ofNat]
    omega

/-- Setting the status to what is true of the state keeps the invariant. -/
theorem StateWf.withStatus {c : Config} {s : State} (hs : StateWf c s) {x : Status}
    (hx : StatusTrue c (s.withStatus x)) : StateWf c (s.withStatus x) :=
  hs.of_sameProgram (SameProgram.refl s) hs.pcAligned hx

/-- Every step keeps the invariant: halting and faulting record what the fetch just found, an instruction keeps the
machine Running and the pc aligned. -/
theorem StateWf.stepWith {c : Config} (hc : ResolverAligned c) {s t : State} (hs : StateWf c s)
    (h : stepWith c s = .next t) : StateWf c t := by
  obtain ⟨-, rfl⟩ | ⟨hrun, hf, rfl⟩ | ⟨hrun, hf, rfl⟩ | ⟨w, r, hrun, hf, hd, rfl⟩ | ⟨w, i, hrun, hf, hd, hi⟩ :=
    cycle_next h
  · exact hs
  · exact hs.withStatus (fetch_eq_endOfProgram_iff.1 hf)
  · exact hs.withStatus ⟨rfl, hf⟩
  · exact hs.withStatus ⟨rfl, hf, r, hd⟩
  · cases hi
    exact hs.of_sameProgram (sameProgram_runRoutine c i s) (runRoutine_pc_aligned hc i hs.pcAligned)
      (statusTrue_of_running ((runRoutine_status c i s).trans hrun))

end Sys2Proof

/-! ## The obligations -/

namespace Sys2Proof.Proofs.Runs

open Sys2Proof.Machine

/-- Settles O54: the running machine's resolver is aligned, so its step is a case of the parametric one. -/
theorem everyStepKeepsStateWellFormed : Obligations.EveryStepKeepsStateWellFormed := by
  unfold Obligations.EveryStepKeepsStateWellFormed
  refine ⟨fun s t hs h => ?_, fun c s t hc hs h => hs.stepWith hc h⟩
  rw [step_eq_stepWith] at h
  exact hs.stepWith resolverAligned_config h

/-- Settles O56: an event is executed at the end of the run made of the events before it. -/
theorem seedCountsTheRngExecuted : Obligations.SeedCountsTheRngExecuted := by
  unfold Obligations.SeedCountsTheRngExecuted
  refine ⟨fun c s t tr h => ⟨h.seed_eq, fun pre e post htr => (h.before_event pre e post htr).seed_eq⟩, fun a s => ?_,
    by decide, by decide⟩
  exact ⟨_, exec_eq _ s, runRoutine_seed config _ s, readReg_runRoutine_written rfl s⟩

/-- Settles O55: bit 31 of a residue modulo 2^31 is clear. -/
theorem seedBit31StaysClear : Obligations.SeedBit31StaysClear := by
  unfold Obligations.SeedBit31StaysClear
  refine ⟨fun a s => ⟨_, exec_eq _ s, ?_⟩, fun s t hbit h => ?_, by decide⟩
  · rw [runRoutine_seed]
    exact lcgNext_getLsbD_31 _
  · rw [step_eq_stepWith] at h
    exact seed_bit31_of_stepWith_next hbit h

/-- Settles O58: no routine and no status change touches the program. -/
theorem noRunChangesTheProgram : Obligations.NoRunChangesTheProgram := by
  unfold Obligations.NoRunChangesTheProgram
  exact fun c s t tr h => h.sameProgram

end Sys2Proof.Proofs.Runs

/-!
SUPPORT. The proofs about one step (R33, R77, R171, R175, R199), the output ports (R38), and the host's operations
that leave the program as it is (R26, R36, R177). What a cycle answers is said once for each status and each thing a
fetch finds.
-/

namespace Sys2Proof.Machine

/-! ## What a cycle answers -/

section
variable {c : Config} {run : Instr → State → Host.Outcome State Fault Refusal} {s : State}

theorem cycle_of_halted (h : s.status = .halted) : cycle c run s = .next s := by
  simp only [cycle, h]

theorem cycle_of_fault {instr : Option Word} {pc : Word} (h : s.status = .fault instr pc) :
    cycle c run s = .fault (stopReason instr pc) := by
  simp only [cycle, h]

section
variable (hrun : s.status = .running)
include hrun

theorem cycle_of_endOfProgram (hf : fetch c s = .endOfProgram) : cycle c run s = .next (haltRun s) := by
  simp only [cycle, hrun, hf]

theorem cycle_of_outside (hf : fetch c s = .outside) : cycle c run s = .next (raiseFetchFault s) := by
  simp only [cycle, hrun, hf]

theorem cycle_of_decode_ok {w : Word} {i : Instr} (hf : fetch c s = .word w) (hd : decodeWith c w = .ok i) :
    cycle c run s = run i s := by
  simp only [cycle, hrun, hf, transact, hd]

theorem cycle_of_decode_error {w : Word} {r : Reject} (hf : fetch c s = .word w) (hd : decodeWith c w = .error r) :
    cycle c run s = .next (raiseDecodeFail w s) := by
  simp only [cycle, hrun, hf, transact, hd]

end

end

/-! ## What a fetch finds -/

theorem fetch_eq_outside {c : Config} {s : State} (hend : s.pc.toNat ≠ s.progEnd)
    (hout : s.inProgram s.pc.toNat = false) : fetch c s = .outside := by
  obtain ⟨he, -⟩ | ⟨-, hi, -⟩ | ⟨-, -, hf⟩ := fetch_cases c s
  · exact absurd he hend
  · rw [hi] at hout
    cases hout
  · exact hf

/-- An address that is not one of an aligned program's words is outside the program (R41, R42). -/
theorem State.inProgram_eq_false {s : State} {a : Nat} (hbase : s.progBase.toNat % 4 = 0)
    (h : ∀ k, k ≤ s.progLen → a ≠ s.progBase.toNat + 4 * k) : s.inProgram a = false := by
  rw [← Bool.not_eq_true, State.inProgram_iff]
  rintro ⟨hlow, hhigh, haligned⟩
  rw [State.progEnd] at hhigh
  exact h ((a - s.progBase.toNat) / 4) (by omega) (by omega)

/-- An address that is neither the end of an aligned program nor that of one of its words holds no word (R199 b). -/
theorem fetch_eq_outside_of_ne {c : Config} {s : State} (hbase : s.progBase.toNat % 4 = 0)
    (h : ∀ k, k ≤ s.progLen → s.pc.toNat ≠ s.progBase.toNat + 4 * k) : fetch c s = .outside :=
  fetch_eq_outside (h s.progLen le_rfl) (State.inProgram_eq_false hbase h)

/-! ## The output ports -/

theorem outputs_of_decode_ok {c : Config} {w : Word} {i : Instr} (hd : decodeWith c w = .ok i) (s : State) :
    outputs c w s = ⟨s.pc, false, branchRequest c i s, consoleWrite c i s⟩ := by
  unfold outputs
  rw [hd]

theorem outputs_of_decode_error {c : Config} {w : Word} {r : Reject} (hd : decodeWith c w = .error r) (s : State) :
    outputs c w s = ⟨s.pc, true, none, none⟩ := by
  unfold outputs
  rw [hd]

/-- The operand a branch request carries is the one of the instruction. -/
theorem branchRequest_eq_some {c : Config} {i : Instr} {s : State} {off : Half} (h : branchRequest c i s = some off) :
    ∃ a, i = .catchBr a off := by
  cases i with
  | catchBr a off' =>
    rw [branchRequest_catchBr] at h
    split at h
    · exact ⟨a, by rw [Option.some.inj h]⟩
    · cases h
  | _ => cases h

/-- The operand of a decoded `catch` is bits 15:0 of the word (R63). -/
theorem immOf_of_decode_catchBr {c : Config} {w : Word} {a : Reg} {off : Half}
    (hd : decodeWith c w = .ok (.catchBr a off)) : immOf w = off := by
  obtain ⟨-, hops, -⟩ := (decodeWith_eq_ok_iff c w _).1 hd
  have hcatch : Instr.catchBr (rsOf w) (immOf w) = .catchBr a off := hops
  exact (Instr.catchBr.inj hcatch).2

/-- The console port names exactly the line an instruction appends (R160). -/
theorem consoleWrite_eq_some {c : Config} {i : Instr} {s : State} {r : Reg} {v : Word}
    (h : consoleWrite c i s = some (r, v)) : v = readReg c s r ∧ Event.line c ⟨i, s⟩ = lineBytes c r v := by
  cases i with
  | inspect a =>
    obtain ⟨rfl, rfl⟩ := Prod.mk.inj (Option.some.inj h)
    exact ⟨rfl, rfl⟩
  | _ => cases h

theorem event_line_of_consoleWrite_eq_none {c : Config} {i : Instr} {s : State} (h : consoleWrite c i s = none) :
    Event.line c ⟨i, s⟩ = [] := by
  cases i with
  | inspect _ => cases h
  | _ => rfl

/-! ## Register values after reset -/

/-- Every register of a file of zeros reads zero (R36, D11). -/
theorem readReg_eq_zero_of_regs {c : Config} {s : State} (h : s.regs = Vector.replicate 32 0#32) (r : Reg) :
    readReg c s r = 0#32 := by
  unfold readReg
  split
  · rfl
  · simp only [h, Vector.getElem_replicate]

/-! ## Faulted machines -/

theorem State.faulted_eq_false_iff (s : State) : s.faulted = false ↔ ∀ w p, s.status ≠ .fault w p := by
  rw [← Bool.not_eq_true, State.faulted_iff]
  simp only [not_exists, ne_eq]

/-- A step answers a next state exactly where no fault is recorded (R33). -/
theorem exists_stepWith_next_iff (c : Config) (s : State) : (∃ t, stepWith c s = .next t) ↔ s.faulted = false := by
  cases hs : s.status with
  | halted => simp [State.faulted, stepWith, cycle_of_halted hs, hs]
  | fault w p => simp [State.faulted, stepWith, cycle_of_fault hs, hs]
  | running =>
    have hnext : ∃ t, stepWith c s = .next t := by
      cases hf : fetch c s with
      | endOfProgram => exact ⟨_, cycle_of_endOfProgram hs hf⟩
      | outside => exact ⟨_, cycle_of_outside hs hf⟩
      | word w =>
        cases hd : decodeWith c w with
        | ok i => exact ⟨_, cycle_of_decode_ok hs hf hd⟩
        | error r => exact ⟨_, cycle_of_decode_error hs hf hd⟩
    simp [State.faulted, hs, hnext]

end Sys2Proof.Machine

/-! ## The obligations -/

namespace Sys2Proof.Proofs.Step

open Sys2Proof.Machine

/-- Settles O46: a Running machine runs what its fetched word decodes to. -/
theorem stepRunsTheDecodedInstruction : Obligations.StepRunsTheDecodedInstruction := by
  unfold Obligations.StepRunsTheDecodedInstruction
  exact fun s w i hrun hf hd => cycle_of_decode_ok hrun hf hd

/-- Settles O47: every arm of `exec` is the routine at the defaults. -/
theorem stepIsTheParametricStepAtDefaults : Obligations.StepIsTheParametricStepAtDefaults := by
  unfold Obligations.StepIsTheParametricStepAtDefaults
  exact step_eq_stepWith

/-- Settles O48: the fetch finds the end there. -/
theorem endOfProgramHalts : Obligations.EndOfProgramHalts := by
  unfold Obligations.EndOfProgramHalts
  exact fun s hrun hend => cycle_of_endOfProgram hrun (fetch_eq_endOfProgram_iff.2 hend)

/-- Settles O49: the fetch finds neither the end nor a word there. -/
theorem fetchOutsideTheProgramFaults : Obligations.FetchOutsideTheProgramFaults := by
  unfold Obligations.FetchOutsideTheProgramFaults
  exact fun s hrun hne hbase => cycle_of_outside hrun (fetch_eq_outside_of_ne hbase hne)

/-- Settles O50: the transaction on a word without a row takes `DecodeFail`. -/
theorem decodeFailRecordsWordAndPc : Obligations.DecodeFailRecordsWordAndPc := by
  unfold Obligations.DecodeFailRecordsWordAndPc
  refine fun s w r hrun hf hd => ⟨cycle_of_decode_error hrun hf hd, ?_⟩
  rw [outputs_of_decode_error hd]

/-- Settles O51: the answer of a stopped machine is settled by its status alone. -/
theorem stoppedMachineTakesNoStep : Obligations.StoppedMachineTakesNoStep := by
  unfold Obligations.StoppedMachineTakesNoStep
  exact fun s => ⟨cycle_of_halted, fun w p => cycle_of_fault, fun p => cycle_of_fault⟩

/-- Settles O52: ports and step both follow what the word decodes to. -/
theorem outputsAgreeWithTheStep : Obligations.OutputsAgreeWithTheStep := by
  unfold Obligations.OutputsAgreeWithTheStep
  intro c s t w hrun hf h
  cases hd : decodeWith c w with
  | error r =>
    rw [stepWith, cycle_of_decode_error hrun hf hd] at h
    cases h
    rw [outputs_of_decode_error hd]
    exact ⟨rfl, iff_of_true rfl rfl, nofun, fun _ => rfl, nofun, fun _ => rfl⟩
  | ok i =>
    rw [stepWith, cycle_of_decode_ok hrun hf hd] at h
    cases h
    rw [outputs_of_decode_ok hd]
    have hstatus : (runRoutine c i s).status ≠ .fault (some w) s.pc := by
      rw [runRoutine_status, hrun]
      exact nofun
    refine ⟨rfl, iff_of_false Bool.false_ne_true hstatus, fun off hreq => ?_, fun hreq => ?_, fun r v hcon => ?_,
      fun hcon => ?_⟩
    · obtain ⟨a, rfl⟩ := branchRequest_eq_some hreq
      refine ⟨(immOf_of_decode_catchBr hd).symm, ?_⟩
      rw [runRoutine_pc, show branchRequest c (.catchBr a off) s = some off from hreq, Option.elim_some]
    · rw [runRoutine_pc, show branchRequest c i s = none from hreq]
      rfl
    · obtain ⟨hv, hline⟩ := consoleWrite_eq_some hcon
      exact ⟨hv, by rw [runRoutine_console, hline]⟩
    · rw [runRoutine_console, event_line_of_consoleWrite_eq_none hcon, List.append_nil]

/-- Settles O59: only a recorded fault is answered with a fault. -/
theorem machineStepsUnlessFaulted : Obligations.MachineStepsUnlessFaulted := by
  unfold Obligations.MachineStepsUnlessFaulted
  intro c s
  rw [exists_stepWith_next_iff, State.faulted_eq_false_iff]

/-- Settles O60: the host's operations but `rst` have no effect on a faulted machine. -/
theorem faultIsLeftOnlyByReset : Obligations.FaultIsLeftOnlyByReset := by
  unfold Obligations.FaultIsLeftOnlyByReset
  intro c s hfault
  refine ⟨fun t h => ?_, fun p => load_faulted c p hfault, fun base image => load_faulted c _ hfault,
    fun r v => unlessFaulted_faulted _ hfault, unlessFaulted_faulted _ hfault, rfl⟩
  have hnot := (exists_stepWith_next_iff c s).1 ⟨t, h⟩
  rw [hfault] at hnot
  cases hnot

end Sys2Proof.Proofs.Step

namespace Sys2Proof.Proofs.HostPort

open Sys2Proof.Machine

/-- Settles O44: the default of REG_RESET is 32 zeros. -/
theorem resetLeavesTheStatedValues : Obligations.ResetLeavesTheStatedValues := by
  unfold Obligations.ResetLeavesTheStatedValues
  refine ⟨fun s => ⟨rfl, rfl, rfl, rfl, fun r => ?_, SameProgram.refl s⟩, rfl, rfl⟩
  exact readReg_eq_zero_of_regs rfl r

/-- Settles O45: on a machine that is not faulted the host's write is a register write. -/
theorem hostWriteIsReadBack : Obligations.HostWriteIsReadBack := by
  unfold Obligations.HostWriteIsReadBack
  intro s r v hfault
  rw [hostWrite_eq config r v hfault]
  refine ⟨readReg_writeReg_self r v s, fun q hq => readReg_writeReg_ne config hq v s, writeReg_seed .., writeReg_pc ..,
    writeReg_console .., writeReg_status .., writeReg_progBase .., writeReg_progLen .., writeReg_imem .., fun a => ?_⟩
  rw [writeReg_imem]

end Sys2Proof.Proofs.HostPort

/-!
SUPPORT. The proofs about program memory, loads and the placing of a word (20_memory.md R41 to R43,
70_reset_and_hazards.md R191). A list of words is written from its first word up, so a later write never touches an
earlier word.
-/

namespace Sys2Proof

/-- A well-formed program is aligned and does not wrap (R41). -/
theorem Program.wf_iff (p : Program) :
    p.wf = true ↔ p.base.toNat % 4 = 0 ∧ p.base.toNat + 4 * p.words.length < 2 ^ 32 := by
  simp only [Program.wf, Program.aligned, Program.fits, Bool.and_eq_true, beq_iff_eq, decide_eq_true_eq]

namespace Machine

namespace Memory

/-! ## The canonical form is unique -/

theorem wfFrom_cons {lo : Nat} {x : Host.Cell} {m : List Host.Cell} :
    wfFrom lo (x :: m) = true ↔ lo ≤ x.1 ∧ x.2 ≠ unlisted ∧ wfFrom (x.1 + 1) m = true := by
  simp only [wfFrom, Bool.and_eq_true, decide_eq_true_eq, bne_iff_ne, and_assoc]

theorem readByte_cons_self (x : Host.Cell) (m : List Host.Cell) : readByte (x :: m) x.1 = x.2 := if_pos rfl

theorem readByte_cons_of_ne {x : Host.Cell} {a : Nat} (h : x.1 ≠ a) (m : List Host.Cell) :
    readByte (x :: m) a = readByte m a := if_neg h

/-- Below its first cell a canonical memory reads as unlisted. -/
theorem readByte_cons_below {lo : Nat} {x : Host.Cell} {m : List Host.Cell} (h : wfFrom lo (x :: m) = true) {a : Nat}
    (ha : a < x.1) : readByte (x :: m) a = unlisted := by
  obtain ⟨-, -, htail⟩ := wfFrom_cons.1 h
  rw [readByte_cons_of_ne (Nat.ne_of_gt ha), readByte_below htail (Nat.lt_succ_of_lt ha)]

/-- The first cell of a canonical memory is at most that of another with the same bytes. -/
theorem head_le_of_readByte_eq {x y : Host.Cell} {m n : List Host.Cell} {lo lo' : Nat}
    (hm : wfFrom lo (x :: m) = true) (hn : wfFrom lo' (y :: n) = true)
    (h : readByte (x :: m) x.1 = readByte (y :: n) x.1) : y.1 ≤ x.1 := by
  by_contra hlt
  obtain ⟨-, hx, -⟩ := wfFrom_cons.1 hm
  rw [readByte_cons_self, readByte_cons_below hn (Nat.lt_of_not_le hlt)] at h
  exact hx h

/-- Two canonical memories with the same bytes list the same lowest address, and so the same cells. -/
theorem eq_of_wfFrom {m n : List Host.Cell} {lo lo' : Nat} (hm : wfFrom lo m = true) (hn : wfFrom lo' n = true)
    (h : ∀ a, readByte m a = readByte n a) : m = n := by
  induction m generalizing lo lo' n with
  | nil =>
    cases n with
    | nil => rfl
    | cons y n =>
      obtain ⟨-, hy, -⟩ := wfFrom_cons.1 hn
      exact absurd ((h y.1).trans (readByte_cons_self y n)).symm hy
  | cons x m ih =>
    obtain ⟨hxlo, hx, hmtail⟩ := wfFrom_cons.1 hm
    cases n with
    | nil => exact absurd ((readByte_cons_self x m).symm.trans (h x.1)) hx
    | cons y n =>
      obtain ⟨hylo, hy, hntail⟩ := wfFrom_cons.1 hn
      have haddr : x.1 = y.1 :=
        Nat.le_antisymm (head_le_of_readByte_eq hn hm (h y.1).symm) (head_le_of_readByte_eq hm hn (h x.1))
      have hbyte : x.2 = y.2 := by
        rw [← readByte_cons_self x m, h, haddr, readByte_cons_self]
      have htail : ∀ a, readByte m a = readByte n a := by
        intro a
        by_cases ha : a = x.1
        · rw [ha, readByte_below hmtail (Nat.lt_succ_self _), haddr, readByte_below hntail (Nat.lt_succ_self _)]
        · rw [← readByte_cons_of_ne (Ne.symm ha) m, h, readByte_cons_of_ne (haddr ▸ Ne.symm ha)]
      rw [Prod.ext haddr hbyte, ih hmtail hntail htail]

/-! ## The cells a write lists -/

theorem mem_putFront {a : Nat} {b : Byte} {m : List Host.Cell} {x : Host.Cell} (h : x ∈ putFront a b m) :
    x.1 = a ∨ x ∈ m := by
  unfold putFront at h
  split at h
  · exact .inr h
  · obtain rfl | h := List.mem_cons.1 h
    · exact .inl rfl
    · exact .inr h

theorem mem_writeByte {a : Nat} {b : Byte} {m : List Host.Cell} {x : Host.Cell} (h : x ∈ writeByte m a b) :
    x.1 = a ∨ x ∈ m := by
  induction m with
  | nil => exact mem_putFront h
  | cons y m ih =>
    unfold writeByte at h
    split at h
    · exact mem_putFront h
    · split at h
      · exact (mem_putFront h).imp_right (List.mem_cons_of_mem y)
      · obtain rfl | h := List.mem_cons.1 h
        · exact .inr List.mem_cons_self
        · exact (ih h).imp_right (List.mem_cons_of_mem y)

theorem mem_writeWord {o : ByteOrder} {a : Nat} {w : Word} {m : List Host.Cell} {x : Host.Cell}
    (h : x ∈ writeWord o m a w) : (a ≤ x.1 ∧ x.1 < a + 4) ∨ x ∈ m := by
  obtain h | h := mem_writeByte h
  · omega
  obtain h | h := mem_writeByte h
  · omega
  obtain h | h := mem_writeByte h
  · omega
  obtain h | h := mem_writeByte h
  · omega
  exact .inr h

/-- Every cell of a written program is inside it (R41). -/
theorem mem_writeWords {o : ByteOrder} {a : Nat} {ws : List Word} {m : List Host.Cell} {x : Host.Cell}
    (h : x ∈ writeWords o m a ws) : (a ≤ x.1 ∧ x.1 < a + 4 * ws.length) ∨ x ∈ m := by
  induction ws generalizing m a with
  | nil => exact .inr h
  | cons w ws ih =>
    rw [List.length_cons]
    obtain h | h := ih h
    · omega
    · obtain h | h := mem_writeWord h
      · omega
      · exact .inr h

/-! ## Reading back what was written -/

theorem readByte_writeWords_below {m : List Host.Cell} (h : wf m = true) (o : ByteOrder) {a x : Nat} (hx : x < a)
    (ws : List Word) : readByte (writeWords o m a ws) x = readByte m x := by
  induction ws generalizing m a with
  | nil => rfl
  | cons w ws ih =>
    rw [writeWords, ih (writeWord_wf o a w h) (by omega), readByte_writeWord_outside h o a w (.inl hx)]

theorem readWord_congr (o : ByteOrder) {m n : List Host.Cell} {a : Nat}
    (h : ∀ x, x < a + 4 → readByte m x = readByte n x) :
    readWord o m a = readWord o n a := by
  unfold readWord
  rw [h a (by omega), h (a + 1) (by omega), h (a + 2) (by omega), h (a + 3) (by omega)]

/-- Word `k` of a written list is read where word `k` stands (R41). -/
theorem readWord_writeWords {m : List Host.Cell} (h : wf m = true) (o : ByteOrder) (a : Nat) (ws : List Word) {k : Nat}
    (hk : k < ws.length) : readWord o (writeWords o m a ws) (a + 4 * k) = ws[k] := by
  induction ws generalizing m a k with
  | nil => cases hk
  | cons w ws ih =>
    have hw := writeWord_wf o a w h
    cases k with
    | zero =>
      calc readWord o (writeWords o m a (w :: ws)) a
        _ = readWord o (writeWord o m a w) a :=
          readWord_congr o fun x hx => readByte_writeWords_below hw o hx ws
        _ = w := readWord_writeWord h o a w
    | succ k =>
      rw [List.getElem_cons_succ, ← ih hw (a + 4) (Nat.lt_of_succ_lt_succ hk), writeWords]
      congr 1
      omega

end Memory

/-! ## Fetches -/

theorem fetch_eq_word {c : Config} {s : State} (h : s.inProgram s.pc.toNat = true) :
    fetch c s = .word (Memory.readWord c.imemByteOrder s.imem s.pc.toNat) := by
  obtain ⟨he, -⟩ | ⟨-, -, hf⟩ | ⟨-, hi, -⟩ := fetch_cases c s
  · obtain ⟨-, hlt, -⟩ := (State.inProgram_iff s _).1 h
    exact absurd he (Nat.ne_of_lt hlt)
  · exact hf
  · rw [h] at hi
    cases hi

/-! ## A loaded machine -/

section
variable (c : Config) (p : Program) {s : State} (hfault : s.faulted = false)
include hfault

theorem load_pc : (load c p s).pc = p.base := by rw [load_eq c p hfault]; rfl
theorem load_status : (load c p s).status = .running := by rw [load_eq c p hfault]; rfl
theorem load_progBase : (load c p s).progBase = p.base := by rw [load_eq c p hfault]; rfl
theorem load_progLen : (load c p s).progLen = p.words.length := by rw [load_eq c p hfault]; rfl
theorem load_seed : (load c p s).seed = s.seed := by rw [load_eq c p hfault]; rfl
theorem load_console : (load c p s).console = s.console := by rw [load_eq c p hfault]; rfl
theorem load_regs : (load c p s).regs = s.regs := by rw [load_eq c p hfault]; rfl
theorem load_imem : (load c p s).imem = Memory.writeWords c.imemByteOrder [] p.base.toNat p.words := by
  rw [load_eq c p hfault]; rfl
theorem load_progEnd : (load c p s).progEnd = p.base.toNat + 4 * p.words.length := by
  rw [State.progEnd, load_progBase c p hfault, load_progLen c p hfault]

/-- A fetch at word `k` of a loaded program finds it (R42). -/
theorem fetch_load_word (hwf : p.wf = true) {pc : Word} {k : Nat} (hk : k < p.words.length)
    (hpc : pc.toNat = p.base.toNat + 4 * k) : fetch c ((load c p s).withPc pc) = .word p.words[k] := by
  obtain ⟨hbase, -⟩ := (Program.wf_iff p).1 hwf
  have hin : ((load c p s).withPc pc).inProgram pc.toNat = true := by
    have hend : ((load c p s).withPc pc).progEnd = p.base.toNat + 4 * p.words.length := load_progEnd c p hfault
    rw [State.inProgram_iff, State.withPc_progBase, load_progBase c p hfault, hend]
    omega
  rw [fetch_eq_word hin, State.withPc_pc, State.withPc_imem, load_imem c p hfault, hpc,
    Memory.readWord_writeWords rfl]

/-- A load of a well-formed program makes a well-formed state (R41, R191). -/
theorem stateWf_load (hwf : p.wf = true) : StateWf c (load c p s) := by
  obtain ⟨hbase, hfits⟩ := (Program.wf_iff p).1 hwf
  refine {
    canonical := ?_
    inside := fun x hx => ?_
    baseAligned := by rw [load_progBase c p hfault]; exact hbase
    fits := by rw [load_progEnd c p hfault]; exact hfits
    pcAligned := by rw [load_pc c p hfault]; exact hbase
    status := statusTrue_of_running (load_status c p hfault) }
  · rw [load_imem c p hfault]
    exact Memory.writeWords_wf _ _ _ rfl
  · rw [load_imem c p hfault] at hx
    rw [load_progBase c p hfault, load_progEnd c p hfault]
    exact (Memory.mem_writeWords hx).resolve_right List.not_mem_nil

end

/-! ## Reset -/

theorem stateWf_assertRst {c : Config} {s : State} (hs : StateWf c s) : StateWf c (assertRst c s) :=
  hs.of_sameProgram (SameProgram.refl s) hs.baseAligned (statusTrue_of_running rfl)

/-- The reset state has no program: an empty memory, and the aligned default of PROG_BASE (D8). -/
theorem stateWf_reset : StateWf config State.reset where
  canonical := rfl
  inside := nofun
  baseAligned := by decide
  fits := by decide
  pcAligned := by decide
  status := trivial

/-! ## A placed word -/

theorem fetchAddress_mod_four (s : State) : (fetchAddress s).toNat % 4 = 0 := by
  rw [fetchAddress_toNat]
  omega

theorem fetchAddress_of_aligned {s : State} (h : s.pc.toNat % 4 = 0) : fetchAddress s = s.pc := by
  apply BitVec.eq_of_toNat_eq
  rw [fetchAddress_toNat, h, Nat.sub_zero]

/-- Placing a word starts the machine at the fetch address, in a program that has the word there: the loaded one, or one
of that word alone (log entry 16). -/
theorem placeAtFetch_eq (c : Config) (w : Word) {s : State} (hfault : s.faulted = false)
    (hwf : Memory.wf s.imem = true) :
    ∃ base len m, Memory.wf m = true ∧ base.toNat ≤ (fetchAddress s).toNat ∧
      (fetchAddress s).toNat < base.toNat + 4 * len ∧
      placeAtFetch c w s = ((s.withProgram base len
        (Memory.writeWord c.imemByteOrder m (fetchAddress s).toNat w)).withPc (fetchAddress s)).withStatus
          .running := by
  unfold placeAtFetch
  cases hin : s.inProgram (fetchAddress s).toNat with
  | false => exact ⟨fetchAddress s, 1, [], rfl, le_rfl, Nat.lt_add_of_pos_right (by decide), startAt_eq _ _ _ _ hfault⟩
  | true =>
    obtain ⟨hlow, hhigh, -⟩ := (State.inProgram_iff s _).1 hin
    exact ⟨s.progBase, s.progLen, s.imem, hwf, hlow, hhigh, startAt_eq _ _ _ _ hfault⟩

/-- The machine fetches the word placed. -/
theorem fetch_placeAtFetch (c : Config) (w : Word) {s : State} (hfault : s.faulted = false)
    (hwf : Memory.wf s.imem = true) : fetch c (placeAtFetch c w s) = .word w := by
  obtain ⟨base, len, m, hm, hlow, hhigh, heq⟩ := placeAtFetch_eq c w hfault hwf
  rw [heq, fetch_eq_word]
  · exact congrArg Fetched.word (Memory.readWord_writeWord hm _ _ w)
  · exact (State.inProgram_iff _ _).2 ⟨hlow, hhigh, fetchAddress_mod_four s⟩

theorem placeAtFetch_status (c : Config) (w : Word) {s : State} (hfault : s.faulted = false)
    (hwf : Memory.wf s.imem = true) : (placeAtFetch c w s).status = .running := by
  obtain ⟨base, len, m, -, -, -, heq⟩ := placeAtFetch_eq c w hfault hwf
  rw [heq, State.withStatus_status]

theorem withFetchWord_eq (s : State) (w : Nat) :
    s.withFetchWord 32 w = placeAtFetch config (BitVec.ofNat 32 w) (leaveFault config s) := by
  have hmod : BitVec.ofNat 32 (w % 2 ^ 32) = BitVec.ofNat 32 w := BitVec.eq_of_toNat_eq (by simp)
  rw [State.withFetchWord, placeWord, hmod]

theorem leaveFault_of_not_faulted (c : Config) {s : State} (h : s.faulted = false) : leaveFault c s = s := by
  rw [leaveFault_eq, if_neg (Bool.eq_false_iff.1 h)]

theorem leaveFault_of_faulted (c : Config) {s : State} (h : s.faulted = true) : leaveFault c s = assertRst c s := by
  rw [leaveFault_eq, if_pos h]

end Machine

end Sys2Proof

/-! ## The obligations -/

namespace Sys2Proof.Proofs.ProgramMemory

open Sys2Proof.Machine

/-- Settles O39: the lowest cell of each is in the other, and then the rest. -/
theorem canonicalMemoriesWithSameBytesAreEqual : Obligations.CanonicalMemoriesWithSameBytesAreEqual := by
  unfold Obligations.CanonicalMemoriesWithSameBytesAreEqual
  exact fun m n hm hn h => Memory.eq_of_wfFrom hm hn h

/-- Settles O40: word `k` survives the writing of the words after it, and no other address is a word's or the end. -/
theorem fetchAfterLoadReadsTheProgram : Obligations.FetchAfterLoadReadsTheProgram := by
  unfold Obligations.FetchAfterLoadReadsTheProgram
  intro c p s pc hfault hwf
  obtain ⟨hbase, -⟩ := (Program.wf_iff p).1 hwf
  refine ⟨fun k hk hpc => fetch_load_word c p hfault hwf hk hpc, fun hpc => ?_, fun hne => ?_⟩
  · exact fetch_eq_endOfProgram_iff.2 (hpc.trans (load_progEnd c p hfault).symm)
  · apply fetch_eq_outside_of_ne
    · rw [State.withPc_progBase, load_progBase c p hfault]
      exact hbase
    · rw [State.withPc_progBase, State.withPc_progLen, load_progBase c p hfault, load_progLen c p hfault]
      exact hne

/-- Settles O41: the words of the image are the program's words. -/
theorem loadingBytesIsLoadingWords : Obligations.LoadingBytesIsLoadingWords := by
  unfold Obligations.LoadingBytesIsLoadingWords
  intro c p s
  rw [loadBytes, wordsOfBytes_flatMap_bytesOfWord]

/-- Settles O42: the first word is word 0 of the loaded program. -/
theorem loadStartsTheProgramAndKeepsTheRest : Obligations.LoadStartsTheProgramAndKeepsTheRest := by
  unfold Obligations.LoadStartsTheProgramAndKeepsTheRest
  intro c p s hfault
  refine ⟨load_pc c p hfault, load_status c p hfault, load_progBase c p hfault, load_progLen c p hfault,
    load_seed c p hfault, load_console c p hfault, readReg_congr c (load_regs c p hfault), fun w ws hwf hw => ?_⟩
  have hpc : (load c p s).withPc p.base = load c p s := by
    conv_lhs => rw [← load_pc c p hfault]
    rfl
  have hpos : 0 < p.words.length := by
    rw [hw]
    exact Nat.succ_pos _
  rw [← hpc, fetch_load_word c p hfault hwf hpos rfl]
  simp only [hw, List.getElem_cons_zero]

/-- Settles O43: the placed word is the one fetched, and a faulted machine takes `rst` first. -/
theorem placedWordRunsNext : Obligations.PlacedWordRunsNext := by
  unfold Obligations.PlacedWordRunsNext
  intro s w i hwf hd
  have hleft : (leaveFault config s).faulted = false := leaveFault_faulted config s
  have hleftWf : Memory.wf (leaveFault config s).imem = true := by rw [leaveFault_imem, hwf]
  refine ⟨?_, fun hfault => ?_, fun hfault => ?_⟩
  · rw [withFetchWord_eq]
    exact cycle_of_decode_ok (placeAtFetch_status config _ hleft hleftWf) (fetch_placeAtFetch config _ hleft hleftWf) hd
  · rw [withFetchWord_eq, leaveFault_of_not_faulted config hfault]
    obtain ⟨base, len, m, -, -, -, heq⟩ := placeAtFetch_eq config (BitVec.ofNat 32 w) hfault hwf
    rw [heq]
    exact ⟨fun _ => rfl, rfl, rfl, fun hpc => fetchAddress_of_aligned hpc⟩
  · rw [withFetchWord_eq, withFetchWord_eq, leaveFault_of_faulted config hfault,
      leaveFault_of_not_faulted config (assertRst_faulted config s)]

/-- Settles O53: a load writes a canonical memory inside the program, and `rst` keeps the program. -/
theorem resetAndLoadGiveWellFormedStates : Obligations.ResetAndLoadGiveWellFormedStates := by
  unfold Obligations.ResetAndLoadGiveWellFormedStates
  refine ⟨stateWf_reset, fun c p s hwf hs => ?_, fun c s hs => stateWf_assertRst hs⟩
  cases hfault : s.faulted with
  | false => exact stateWf_load c p hfault hwf
  | true =>
    rw [load_faulted c p hfault]
    exact hs.resolve_left fun h => Bool.noConfusion (hfault.symm.trans h)

end Sys2Proof.Proofs.ProgramMemory

/-!
SUPPORT. The proofs about the arithmetic of 00_scope.md (R11, R12, R14) and of the LCG (R151).
-/

namespace Sys2Proof.Machine

/-! ## Sign extension -/

theorem extractLsb'_sext16 (v : Half) : (sext16 v).extractLsb' 0 16 = v := by
  apply BitVec.eq_of_getLsbD_eq
  intro k hk
  rw [BitVec.getLsbD_extractLsb', Nat.zero_add, getLsbD_sext16 v (by omega), Nat.min_eq_left (by omega),
    decide_eq_true hk, Bool.true_and]

theorem toInt_sext16 (v : Half) : (sext16 v).toInt = v.toInt :=
  BitVec.toInt_signExtend_of_le (by decide)

/-- Sign extension moves bit 15 to bit 31 and shifts it down again (R12). -/
theorem sext16_eq_sshiftRight (v : Half) : sext16 v = (v.setWidth 32 <<< 16).sshiftRight 16 := by
  apply BitVec.eq_of_getLsbD_eq
  intro k hk
  rw [getLsbD_sext16 v hk, BitVec.getLsbD_sshiftRight, BitVec.msb_eq_getLsbD_last]
  simp only [BitVec.getLsbD_shiftLeft, BitVec.getLsbD_setWidth]
  interval_cases k <;> simp

/-! ## Halving -/

/-- Truncation is the floor after one is added to a negative value (R14). -/
theorem tdiv_two_eq (x : Int) : x.tdiv 2 = (x + if x < 0 then 1 else 0) / 2 := by
  obtain hx | hx := Int.lt_or_le x 0
  · rw [if_pos hx, ← Int.neg_neg x, Int.neg_tdiv, Int.tdiv_eq_ediv_of_nonneg (by omega)]
    omega
  · rw [if_neg (Int.not_lt.2 hx), Int.add_zero, Int.tdiv_eq_ediv_of_nonneg hx]

theorem div2t_eq_sshiftRight (x : Word) : div2t x = (x + if x.msb then 1#32 else 0#32).sshiftRight 1 := by
  have hlow : -2 ^ 31 ≤ x.toInt := BitVec.le_toInt x
  have hhigh : x.toInt < 2 ^ 31 := BitVec.toInt_lt
  have hsum : (x + if x.msb then 1#32 else 0#32).toInt = x.toInt + if x.toInt < 0 then 1 else 0 := by
    rw [BitVec.msb_eq_toInt, BitVec.toInt_add]
    have h1 : (1#32).toInt = 1 := rfl
    have h0 : (0#32).toInt = 0 := rfl
    by_cases hx : x.toInt < 0
    · simp only [hx, decide_true, if_true, h1]
      exact Int.bmod_eq_of_le (by omega) (by omega)
    · simp only [hx, decide_false, if_false, Bool.false_eq_true, h0]
      exact Int.bmod_eq_of_le (by omega) (by omega)
  apply BitVec.eq_of_toInt_eq
  rw [show (div2t x).toInt = x.toInt.tdiv 2 from signed_div2t x, tdiv_two_eq, BitVec.toInt_sshiftRight, hsum,
    Int.shiftRight_eq_div_pow]
  rfl

/-! ## The LCG step -/

/-- Masking off bit 31 is the residue modulo 2^31. -/
theorem and_0x7FFFFFFF_toNat (x : Word) : (x &&& 0x7FFFFFFF#32).toNat = x.toNat % 2 ^ 31 := by
  rw [BitVec.toNat_and]
  exact Nat.and_two_pow_sub_one_eq_mod x.toNat 31

theorem lcgNext_eq_and (s : Word) : lcgNext s = (1103515245#32 * s + 12345#32) &&& 0x7FFFFFFF#32 := by
  apply BitVec.eq_of_toNat_eq
  rw [and_0x7FFFFFFF_toNat, lcgNext_toNat, BitVec.toNat_add, BitVec.toNat_mul, BitVec.toNat_ofNat,
    BitVec.toNat_ofNat]
  omega

/-- The signed and the unsigned value of a seed differ by a multiple of 2^31, so their steps have one residue. -/
theorem lcgNext_toNat_signed (s : Word) : ((lcgNext s).toNat : Int) = (1103515245 * signed s + 12345) % 2 ^ 31 := by
  rw [lcgNext_toNat]
  obtain h | h := toInt_eq_or s
  · rw [signed, h]
    omega
  · rw [signed, h]
    omega

end Sys2Proof.Machine

/-! ## The obligations -/

namespace Sys2Proof.Proofs.Scope

open Sys2Proof.Machine

/-- Settles O9: sum and difference are those of 32-bit words, and every instruction completes. -/
theorem addAndSubtractWrap : Obligations.AddAndSubtractWrap := by
  unfold Obligations.AddAndSubtractWrap
  refine ⟨fun a b => ?_, fun a b => ?_, fun a b imm s => ⟨⟨_, exec_eq _ s⟩, ⟨_, exec_eq _ s⟩, ⟨_, exec_eq _ s⟩⟩⟩
  · rw [add_eq]
    exact ⟨BitVec.toNat_add a b, BitVec.toInt_add a b⟩
  · rw [sub_eq, BitVec.toNat_sub]
    exact ⟨by omega, BitVec.toInt_sub⟩

/-- Settles O10: each clause is a law of sign extension. -/
theorem signExtensionKeepsTheSignedValue : Obligations.SignExtensionKeepsTheSignedValue := by
  unfold Obligations.SignExtensionKeepsTheSignedValue
  refine fun v => ⟨extractLsb'_sext16 v, fun k hlow hhigh => ?_, toInt_sext16 v, sext16_eq_sshiftRight v⟩
  rw [getLsbD_sext16 v hhigh, Nat.min_eq_right (by omega)]

/-- Settles O12: (1, 2) is the first pair of the not-very-effective list, so `typeeff` halves there. -/
theorem halvingTruncatesTowardZero : Obligations.HalvingTruncatesTowardZero := by
  unfold Obligations.HalvingTruncatesTowardZero
  refine ⟨fun x => ?_, by decide, by decide, fun a b s hatt hdef => ?_⟩
  · have htdiv : (div2t x).toInt = x.toInt.tdiv 2 := signed_div2t x
    refine ⟨htdiv, fun hx => ?_, fun hx => ?_, div2t_eq_sshiftRight x⟩
    · rw [htdiv, tdiv_two_eq, if_neg (Int.not_lt.2 hx), Int.add_zero]
    · rw [htdiv, tdiv_two_eq, if_pos hx]
      omega
  · have hnot : (readReg config s attackerSlot, readReg config s b) ∈ notVeryEffective := by
      rw [attackerSlot, hatt, hdef]
      decide
    rw [← effectivePower_notVeryEffective hnot]
    exact exec_readReg_written (i := .typeeff a b) rfl

/-- Settles O14: 2^31 divides 2^32, so wrapping and the sign do not change the residue. -/
theorem lcgStepIsTheSameInEveryArithmetic : Obligations.LcgStepIsTheSameInEveryArithmetic := by
  unfold Obligations.LcgStepIsTheSameInEveryArithmetic
  exact fun s => ⟨lcgNext_toNat s, lcgNext_getLsbD_31 s, lcgNext_eq_and s, lcgNext_toNat_signed s⟩

end Sys2Proof.Proofs.Scope

/-!
SUPPORT. The proofs about single instructions: the register-immediate ones (R111 to R119), `catch` (R141), `rng`
(R152) and `inspect` (R160), and the decimal text of a line (R162, R163).
-/

namespace Sys2Proof

/-! ## The I_FORMAT layout on the running machine -/

/-- The running machine takes the register operand from rt (R69, D3). -/
theorem iTarget_config_packI (op : BitVec 6) (rs rt : Reg) (imm : Half) : iTarget config (packI op rs rt imm) = rt :=
  rtOf_packI op rs rt imm

namespace Machine

/-! ## Two instructions on one register -/

/-- Two instructions that each replace a register by a function of it replace it by their composition. -/
theorem exec_exec_readReg {i j : Instr} {a : Reg} {f g : Word → Word}
    (hi : ∀ s, runRoutine config i s = advance (writeReg config a (f (readReg config s a)) s))
    (hj : ∀ s, runRoutine config j s = advance (writeReg config a (g (readReg config s a)) s)) (s : State) :
    ∃ t u, exec i s = .next t ∧ exec j t = .next u ∧ readReg config u a = g (f (readReg config s a)) := by
  obtain ⟨t, ht, hvt⟩ := exec_readReg_written (hi s)
  obtain ⟨u, hu, hvu⟩ := exec_readReg_written (hj t)
  exact ⟨t, u, ht, hu, by rw [hvu, hvt]⟩

theorem sub_add_cancel_word (x y : Word) : sub (add x y) y = x := by
  rw [add_eq, sub_eq, BitVec.add_sub_cancel]

theorem add_sub_cancel_word (x y : Word) : add (sub x y) y = x := by
  rw [add_eq, sub_eq, BitVec.sub_add_cancel]

section
variable {i : Instr} {a : Reg} {m : Half}
  (hi : ∀ s, runRoutine config i s = advance (writeReg config a (add (readReg config s a) (sext16 m)) s))
include hi

/-- `debuff` undoes an instruction that adds the immediate, `buff` or `heal` (R119). -/
theorem exec_debuff_after_add (s : State) :
    ∃ t u, exec i s = .next t ∧ exec (.debuff a m) t = .next u ∧ readReg config u a = readReg config s a := by
  rw [← sub_add_cancel_word (readReg config s a) (sext16 m)]
  exact exec_exec_readReg (f := (add · (sext16 m))) (g := (sub · (sext16 m))) hi (fun _ => rfl) s

/-- Such an instruction undoes `debuff` (R119). -/
theorem exec_add_after_debuff (s : State) :
    ∃ t u, exec (.debuff a m) s = .next t ∧ exec i t = .next u ∧ readReg config u a = readReg config s a := by
  rw [← add_sub_cancel_word (readReg config s a) (sext16 m)]
  exact exec_exec_readReg (f := (sub · (sext16 m))) (g := (add · (sext16 m))) (fun _ => rfl) hi s

end

theorem clearBits_setBits (x m : Word) : clearBits (setBits x m) m = x &&& ~~~m := by
  apply BitVec.eq_of_getLsbD_eq
  intro k hk
  rw [getLsbD_clearBits _ _ hk, getLsbD_setBits, BitVec.getLsbD_and, BitVec.getLsbD_not, decide_eq_true hk]
  cases x.getLsbD k <;> cases m.getLsbD k <;> rfl

theorem setBits_clearBits (x m : Word) : setBits (clearBits x m) m = x ||| m := by
  apply BitVec.eq_of_getLsbD_eq
  intro k hk
  rw [getLsbD_setBits, getLsbD_clearBits _ _ hk, BitVec.getLsbD_or]
  cases x.getLsbD k <;> cases m.getLsbD k <;> rfl

/-! ## The output of the generator -/

/-- Bits 15:1 of a seed, as a shift and a mask (R152). -/
theorem lcgOutput_eq_and (x : Word) : lcgOutput x = (x >>> 1) &&& 0x7FFF#32 := by
  apply BitVec.eq_of_getLsbD_eq
  intro k hk
  simp only [lcgOutput, zext16, BitVec.getLsbD_setWidth, BitVec.getLsbD_extractLsb', BitVec.getLsbD_and,
    BitVec.getLsbD_ushiftRight]
  interval_cases k <;> simp

theorem lcgOutput_toNat_le (x : Word) : (lcgOutput x).toNat ≤ 32767 := by
  rw [lcgOutput_eq_and, BitVec.toNat_and]
  exact Nat.and_le_right

/-! ## Decimal text -/

theorem toNat_digitChar {d : Nat} (h : d < 10) : (digitChar d).toNat = 48 + d := by
  interval_cases d <;> rfl

theorem isDecimalOf_digit {d : Nat} (h : d < 10) : IsDecimalOf [digitChar d] d := by
  have hd := toNat_digitChar h
  refine ⟨fun c hc => ?_, List.cons_ne_nil _ _, fun hzero => ?_, ?_⟩
  · rw [List.mem_singleton.1 hc, hd]
    omega
  · rw [Option.some.inj hzero]
  · rw [decimalValue, List.foldl_cons, List.foldl_nil, hd]
    omega

/-- One digit more at the end is ten times the number and the digit. -/
theorem isDecimalOf_snoc {ds : List Char} {n d : Nat} (h : IsDecimalOf ds n) (hn : n ≠ 0) (hd : d < 10) :
    IsDecimalOf (ds ++ [digitChar d]) (10 * n + d) := by
  obtain ⟨hdigits, hne, hlead, hvalue⟩ := h
  refine ⟨fun c hc => ?_, List.append_ne_nil_of_left_ne_nil hne _, fun hzero => ?_, ?_⟩
  · obtain hc | hc := List.mem_append.1 hc
    · exact hdigits c hc
    · rw [List.mem_singleton.1 hc, toNat_digitChar hd]
      omega
  · rw [List.head?_append_of_ne_nil _ hne] at hzero
    rw [hlead hzero] at hvalue
    exact absurd hvalue.symm hn
  · rw [decimalValue, List.foldl_append, ← decimalValue, hvalue, List.foldl_cons, List.foldl_nil, toNat_digitChar hd]
    omega

/-- The digits of a number that has at most `fuel` of them, and at least one, are its decimal text. -/
theorem isDecimalOf_decimalDigits {fuel n : Nat} (hfuel : 0 < fuel) (h : n < 10 ^ fuel) :
    IsDecimalOf (decimalDigits fuel n) n := by
  induction fuel generalizing n with
  | zero => cases hfuel
  | succ k ih =>
    unfold decimalDigits
    split
    · next hsmall => exact isDecimalOf_digit hsmall
    · next hlarge =>
      have hk : 0 < k := by
        by_contra hk
        rw [Nat.eq_zero_of_not_pos hk] at h
        omega
      have hdiv : n / 10 < 10 ^ k := by
        rw [Nat.pow_succ] at h
        omega
      have hsnoc := isDecimalOf_snoc (ih hk hdiv) (by omega) (Nat.mod_lt n (by decide))
      rwa [Nat.div_add_mod] at hsnoc

/-! ## The text of a line -/

theorem linePrefix_eq : linePrefix = "Let's look at the stat here (".toList := by decide

/-- With the default encoding a line has one byte for each character (R164, D14). -/
theorem lineBytes_config (r : Reg) (v : Word) :
    lineBytes config r v = (lineText r v).map fun ch => BitVec.ofNat 8 ch.toNat :=
  List.flatMap_pure_eq_map _ _

end Machine

end Sys2Proof

/-! ## The obligations -/

namespace Sys2Proof.Proofs.ImmediateAlu

open Sys2Proof.Machine

/-- Settles O19: A is the rt field, and `heal` writes the wrapping sum. -/
theorem healAddsSignedImmediate : Obligations.HealAddsSignedImmediate := by
  unfold Obligations.HealAddsSignedImmediate
  intro a rs imm
  have hdecode : decode (packI 0b001000#6 rs a imm) = .ok (.heal a imm) := by
    rw [decode_packI (m := .heal) (fun _ => rfl), operandsOf, iTarget_config_packI, immOf_packI]
  refine ⟨hdecode, rfl, fun s => ?_⟩
  rw [← add_eq]
  exact exec_onlyRegister rfl

/-- Settles O20: the routine of `buff` is that of `heal`. -/
theorem buffAddsSignedImmediate : Obligations.BuffAddsSignedImmediate := by
  unfold Obligations.BuffAddsSignedImmediate
  intro a rs imm
  have hdecode : decode (packI 0b001010#6 rs a imm) = .ok (.buff a imm) := by
    rw [decode_packI (m := .buff) (fun _ => rfl), operandsOf, iTarget_config_packI, immOf_packI]
  refine ⟨hdecode, rfl, fun s => ⟨rfl, ?_⟩⟩
  rw [← add_eq]
  exact exec_onlyRegister rfl

/-- Settles O21: A is the rt field, and `debuff` writes the wrapping difference. -/
theorem debuffSubtractsSignedImmediate : Obligations.DebuffSubtractsSignedImmediate := by
  unfold Obligations.DebuffSubtractsSignedImmediate
  intro a rs imm
  have hdecode : decode (packI 0b001011#6 rs a imm) = .ok (.debuff a imm) := by
    rw [decode_packI (m := .debuff) (fun _ => rfl), operandsOf, iTarget_config_packI, immOf_packI]
  refine ⟨hdecode, rfl, fun s => ?_⟩
  rw [← sub_eq]
  exact exec_onlyRegister rfl

/-- Settles O22: the routine never uses A. -/
theorem settypep1WritesTheAttackerSlot : Obligations.Settypep1WritesTheAttackerSlot := by
  unfold Obligations.Settypep1WritesTheAttackerSlot
  intro a rs imm
  have hdecode : decode (packI 0b001001#6 rs a imm) = .ok (.settypep1 a imm) := by
    rw [decode_packI (m := .settypep1) (fun _ => rfl), operandsOf, iTarget_config_packI, immOf_packI]
  exact ⟨hdecode, rfl, fun s => ⟨fun q => rfl, exec_onlyRegister rfl⟩⟩

/-- Settles O23: the routine never uses A. -/
theorem settypep2WritesTheDefenderSlot : Obligations.Settypep2WritesTheDefenderSlot := by
  unfold Obligations.Settypep2WritesTheDefenderSlot
  intro a rs imm
  have hdecode : decode (packI 0b101001#6 rs a imm) = .ok (.settypep2 a imm) := by
    rw [decode_packI (m := .settypep2) (fun _ => rfl), operandsOf, iTarget_config_packI, immOf_packI]
  exact ⟨hdecode, rfl, fun s => ⟨fun q => rfl, exec_onlyRegister rfl⟩⟩

/-- Settles O24: A is the rt field, and `setstatus` writes the OR. -/
theorem setstatusOrsSignedImmediate : Obligations.SetstatusOrsSignedImmediate := by
  unfold Obligations.SetstatusOrsSignedImmediate
  intro a rs imm
  have hdecode : decode (packI 0b001100#6 rs a imm) = .ok (.setstatus a imm) := by
    rw [decode_packI (m := .setstatus) (fun _ => rfl), operandsOf, iTarget_config_packI, immOf_packI]
  exact ⟨hdecode, rfl, fun s => exec_onlyRegister rfl⟩

/-- Settles O25: the immediate is extended first and inverted second. -/
theorem resetstatusClearsSignedImmediate : Obligations.ResetstatusClearsSignedImmediate := by
  unfold Obligations.ResetstatusClearsSignedImmediate
  intro a rs imm
  have hdecode : decode (packI 0b001101#6 rs a imm) = .ok (.resetstatus a imm) := by
    rw [decode_packI (m := .resetstatus) (fun _ => rfl), operandsOf, iTarget_config_packI, immOf_packI]
  exact ⟨hdecode, rfl, fun s => exec_onlyRegister rfl⟩

/-- Settles O36: each pair composes, and the compositions are laws of the ALU. -/
theorem immediateInstructionLaws : Obligations.ImmediateInstructionLaws := by
  unfold Obligations.ImmediateInstructionLaws
  intro a m s
  have hbuff (s : State) : runRoutine config (.buff a m) s =
      advance (writeReg config a (add (readReg config s a) (sext16 m)) s) := rfl
  have hheal (s : State) : runRoutine config (.heal a m) s =
      advance (writeReg config a (add (readReg config s a) (sext16 m)) s) := rfl
  refine ⟨exec_debuff_after_add hbuff s, exec_debuff_after_add hheal s, exec_add_after_debuff hbuff s,
    exec_add_after_debuff hheal s, ?_, ?_⟩
  · obtain ⟨t, u, ht, hu, hv⟩ := exec_exec_readReg (i := .setstatus a m) (j := .resetstatus a m)
      (f := (setBits · (sext16 m))) (g := (clearBits · (sext16 m))) (fun _ => rfl) (fun _ => rfl) s
    rw [clearBits_setBits] at hv
    refine ⟨t, u, ht, hu, hv, ?_⟩
    rw [hv]
    exact (bitVec_and_eq_zero_iff _ _).symm
  · rw [← sext16, ← setBits_clearBits]
    exact exec_exec_readReg (f := (clearBits · (sext16 m))) (g := (setBits · (sext16 m))) (fun _ => rfl)
      (fun _ => rfl) s

end Sys2Proof.Proofs.ImmediateAlu

namespace Sys2Proof.Proofs.Branch

open Sys2Proof.Machine

/-- Settles O29: the decision is the signed comparison, and the request decides the pc. -/
theorem catchBranchesOnSignedGreater : Obligations.CatchBranchesOnSignedGreater := by
  unfold Obligations.CatchBranchesOnSignedGreater
  intro a rt off
  have hdecode : decode (packI 0b000100#6 a rt off) = .ok (.catchBr a off) := by
    rw [decode_packI (m := .catchBr) (fun _ => rfl), operandsOf, rsOf_packI, immOf_packI]
  refine ⟨hdecode, rfl, fun s => ⟨_, exec_eq _ s, ?_⟩⟩
  refine ⟨sameRegs_runRoutine rfl s, runRoutine_seed config _ s,
    runRoutine_console_of_ne_inspect (i := .catchBr a off) nofun config s, runRoutine_status config _ s,
    sameProgram_runRoutine config _ s, fun htaken => ?_, fun hnot => ?_⟩
  · have hreq : branchRequest config (.catchBr a off) s = some off := by
      rw [branchRequest_catchBr, (branchTaken_iff config a s).2 htaken, if_pos rfl]
    rw [runRoutine_pc, hreq]
    exact ⟨rfl, rfl⟩
  · have hreq : branchRequest config (.catchBr a off) s = none := by
      rw [branchRequest_catchBr, (branchTaken_eq_false_iff config a s).2 hnot, if_neg Bool.false_ne_true]
    rw [runRoutine_pc, hreq]
    exact ⟨rfl, rfl⟩

end Sys2Proof.Proofs.Branch

namespace Sys2Proof.Proofs.Rng

open Sys2Proof.Machine

/-- Settles O30: the value written is the output of the new seed. -/
theorem rngStepsTheSeedAndWritesItsOutput : Obligations.RngStepsTheSeedAndWritesItsOutput := by
  unfold Obligations.RngStepsTheSeedAndWritesItsOutput
  intro a rs imm
  have hdecode : decode (packI 0b001110#6 rs a imm) = .ok (.rng a) := by
    rw [decode_packI (m := .rng) (fun _ => rfl), operandsOf, iTarget_config_packI]
  refine ⟨hdecode, rfl, fun s => ⟨_, exec_eq _ s, ?_⟩⟩
  have hseed : (runRoutine config (.rng a) s).seed = lcgNext s.seed := runRoutine_seed config _ s
  have hvalue : readReg config (runRoutine config (.rng a) s) a = lcgOutput (lcgNext s.seed) :=
    readReg_runRoutine_written rfl s
  rw [hvalue, hseed]
  refine ⟨lcgNext_toNat _, lcgOutput_eq_and _, lcgOutput_toNat_le _, fun r hr => ?_, runRoutine_pc config _ s,
    runRoutine_console_of_ne_inspect (i := .rng a) nofun config s, runRoutine_status config _ s,
    sameProgram_runRoutine config _ s⟩
  exact readReg_runRoutine_of_ne config (i := .rng a) (fun h => hr (Option.some.inj h).symm) s

end Sys2Proof.Proofs.Rng

namespace Sys2Proof.Proofs.Console

open Sys2Proof.Machine

/-- Settles O31: the line is the text of the model, one byte a character. -/
theorem inspectAppendsOneLine : Obligations.InspectAppendsOneLine := by
  unfold Obligations.InspectAppendsOneLine
  intro a rt rd u
  have hdecode : decode (wordR a rt rd u 0b000010#6) = .ok (.inspect a) := by
    rw [decode_wordR a rt rd u (m := .inspect) rfl, operandsOf, rsOf_wordR]
  refine ⟨hdecode, packR_eq_wordR a 0#5 _, fun s => ⟨_, exec_eq _ s, ?_⟩⟩
  refine ⟨sameRegs_runRoutine rfl s, runRoutine_pc config _ s, runRoutine_seed config _ s,
    runRoutine_status config _ s, sameProgram_runRoutine config _ s, ?_⟩
  have hline : Event.line config ⟨.inspect a, s⟩ = lineBytes config a (readReg config s a) := rfl
  rw [runRoutine_console, hline, lineBytes_config, lineText, linePrefix_eq]
  rfl

/-- Settles O32: an index has at most two digits and a magnitude at most ten. -/
theorem namesAndNumbersAreTheSpecsText : Obligations.NamesAndNumbersAreTheSpecsText := by
  unfold Obligations.NamesAndNumbersAreTheSpecsText
  refine ⟨fun r => ⟨fun hlow hhigh => ?_, fun hlow hhigh => ?_, fun hother => ?_⟩,
    fun v => ⟨fun hpos => ?_, fun hneg => ?_⟩⟩
  · exact ⟨_, if_pos ⟨hlow, hhigh⟩, isDecimalOf_digit (by omega)⟩
  · exact ⟨_, (if_neg (by omega)).trans (if_pos ⟨hlow, hhigh⟩), isDecimalOf_digit (by omega)⟩
  · have hr := r.isLt
    exact ⟨_, (if_neg (by omega)).trans (if_neg (by omega)), isDecimalOf_decimalDigits (by decide) (by omega)⟩
  · have hhigh : v.toInt < 2 ^ 31 := BitVec.toInt_lt
    rw [decText, if_neg (Int.not_lt.2 hpos), signed, show v.toInt.natAbs = v.toInt.toNat by omega]
    exact isDecimalOf_decimalDigits (by decide) (by omega)
  · have hlow : -2 ^ 31 ≤ v.toInt := BitVec.le_toInt v
    rw [decText, if_pos hneg, signed, show v.toInt.natAbs = (-v.toInt).toNat by omega]
    exact ⟨_, rfl, isDecimalOf_decimalDigits (by decide) (by omega)⟩

end Sys2Proof.Proofs.Console
